-- ==== Sys2Proof/Word.lean ====
section
/-! DEFINITION. The word types of the block (spec 00_scope.md R8, R10). -/

namespace Sys2Proof

/-- Data word, registers A, X, Y and P, a memory cell: 8 bits (R8). -/
abbrev Byte := BitVec 8

/-- Address, program counter, 16-bit quantities: 16 bits (R8). -/
abbrev Addr := BitVec 16

end Sys2Proof
end

