-- ==== Sys2Proof/Config.lean ====
section
/-! DEFINITION. The parameters the spec names (00_scope.md R9) and the one constraint on them.
They are fixed for the machine and no part of State (R20). Every shared operation that depends on one takes
a `Config`; the machine runs at `Config.taken` (Machine/Parameters.lean). -/

namespace Sys2Proof

/-- `WORD_AT_TOP`: what a 16-bit access at `0xFFFF` does (R48, D8). -/
inductive WordAtTop where
  | fault
  | wrap
deriving DecidableEq, Repr

/-- `ZP_PTR_WRAP`: where the high byte of a zero-page pointer at `0xFF` comes from (R97, D7). -/
inductive ZpPtrWrap where
  | page0
  | linear
deriving DecidableEq, Repr

/-- `LDA_B1_MODE`: the addressing mode of opcode `0xB1` (R70, D4). -/
inductive B1Mode where
  | indirectY
  | indirectX
deriving DecidableEq, Repr

/-- One entry of `CYCLES` (R67, R173): the base cycle count of an opcode, and whether the table marks it `(+1)`.
Informational: no rule depends on it. -/
structure CycleEntry where
  opcode : Byte
  base : Nat
  pageCross : Bool
deriving DecidableEq, Repr

/-- The parameters of R9. -/
structure Config where
  /-- `LOAD_BASE` (D1). -/
  loadBase : Addr
  /-- `RESET_VECTOR_ADDR`: the low byte's address (D2). -/
  resetVector : Addr
  /-- `RESET_CLEARS_Y` (D3). -/
  resetClearsY : Bool
  /-- `LDA_B1_MODE` (D4). -/
  ldaB1Mode : B1Mode
  /-- `ZP_PTR_WRAP` (D7). -/
  zpPtrWrap : ZpPtrWrap
  /-- `WORD_AT_TOP` (D8). -/
  wordAtTop : WordAtTop
  /-- `CYCLES` (D19). -/
  cycles : List CycleEntry
deriving DecidableEq, Repr

/-- The one constraint the spec puts on a parameter: the vector's word does not start at `0xFFFF` (R164, D2). -/
def Config.wf (c : Config) : Bool := c.resetVector != 0xFFFF

end Sys2Proof
end

