-- ==== Sys2Proof/Syntax.lean ====
section
/-! DEFINITION. Instructions: the addressing modes (10_state.md R29), the mnemonics and the decoder's record (R30),
and the ONE inductive of instructions, one constructor per row of spec/opcode_table.json (30_encoding.md R67). -/

namespace Sys2Proof

/-- The closed variant of addressing modes (R29). The document's "Accumulator" is the same value as `implied` (log 17). -/
inductive Mode where
  | implied
  | immediate
  | zeroPage
  | zeroPageX
  | zeroPageY
  | absolute
  | absoluteX
  | absoluteY
  | indirectX
  | indirectY
deriving DecidableEq, Repr

/-- The seven mnemonics (R5, R30). -/
inductive Mnemonic where
  | adc
  | and
  | lda
  | sta
  | tax
  | inx
  | brk
deriving DecidableEq, Repr

/-- An opcode descriptor (R30). -/
structure Descriptor where
  opcode : Byte
  mnemonic : Mnemonic
  bytes : Nat
  cycles : Nat
  mode : Mode
deriving DecidableEq, Repr

/-- The operand field of an instruction (R61): none (F1), `op8` (F2), or `hi : lo` (F3). -/
inductive Operand where
  | none
  | op8 (b : Byte)
  | op16 (a : Addr)
deriving DecidableEq, Repr

/-- The instructions, one constructor per row of the opcode table, in the table's order. An F2 row carries its operand
byte, an F3 row its 16-bit operand (low byte first in memory, R63). -/
inductive Instr where
  | adcImm (v : Byte)
  | adcZp (zp : Byte)
  | adcZpX (zp : Byte)
  | adcAbs (ad : Addr)
  | adcAbsX (ad : Addr)
  | adcAbsY (ad : Addr)
  | adcIndX (zp : Byte)
  | adcIndY (zp : Byte)
  | andImm (v : Byte)
  | andZp (zp : Byte)
  | andZpX (zp : Byte)
  | andAbs (ad : Addr)
  | andAbsX (ad : Addr)
  | andAbsY (ad : Addr)
  | andIndX (zp : Byte)
  | andIndY (zp : Byte)
  | ldaImm (v : Byte)
  | ldaZp (zp : Byte)
  | ldaZpX (zp : Byte)
  | ldaAbs (ad : Addr)
  | ldaAbsX (ad : Addr)
  | ldaAbsY (ad : Addr)
  | ldaIndX (zp : Byte)
  /-- Opcode `0xB1`: its mode is the parameter `LDA_B1_MODE`, IndirectY in the table (R70). -/
  | ldaIndY (zp : Byte)
  | staZp (zp : Byte)
  | staZpX (zp : Byte)
  | staAbs (ad : Addr)
  | staAbsX (ad : Addr)
  | staAbsY (ad : Addr)
  | staIndX (zp : Byte)
  | staIndY (zp : Byte)
  | tax
  | inx
  | brk
deriving DecidableEq, Repr

end Sys2Proof
end

