-- ==== Sys2Proof/WellFormed.lean ====
section
/-! DEFINITION. Which descriptors and which operands are well formed: the length of each mode (30_encoding.md R62),
the split of the handlers into addressed and implied (R66), the modes each mnemonic has (00_scope.md R5), and the
operand format of each mode (R61). -/

namespace Sys2Proof

/-- Length in bytes by addressing mode (R62). -/
def Mode.bytes : Mode → Nat
  | .implied => 1
  | .immediate | .zeroPage | .zeroPageX | .zeroPageY | .indirectX | .indirectY => 2
  | .absolute | .absoluteX | .absoluteY => 3

/-- The addressed mnemonics: the ones whose handler gets a mode and calls the resolver (R66). -/
def Mnemonic.addressed : Mnemonic → Bool
  | .adc | .and | .lda | .sta => true
  | .tax | .inx | .brk => false

/-- A (mnemonic, mode) pair is a form in scope (R5): an addressed mnemonic never has Implied and an implied one has
nothing else (R66), STA has no Immediate (R124), and no form has ZeroPageY (R101). -/
def formInScope (n : Mnemonic) (m : Mode) : Bool :=
  (n.addressed == (m != .implied)) && !(n == .sta && m == .immediate) && m != .zeroPageY

/-- A descriptor is well formed when its pair is a form in scope and its length is its mode's (R62). -/
def Descriptor.wf (d : Descriptor) : Bool :=
  formInScope d.mnemonic d.mode && d.bytes == d.mode.bytes

/-- The operand field a mode has (R61): none for F1, one byte for F2, sixteen bits for F3. -/
def Operand.fits : Operand → Mode → Bool
  | .none, m => m.bytes == 1
  | .op8 _, m => m.bytes == 2
  | .op16 _, m => m.bytes == 3

/-- The mode of opcode `0xB1` (R70). -/
def B1Mode.mode : B1Mode → Mode
  | .indirectY => .indirectY
  | .indirectX => .indirectX

/-- The mnemonic column of R67. -/
def Instr.mnemonic : Instr → Mnemonic
  | .adcImm _ | .adcZp _ | .adcZpX _ | .adcAbs _ | .adcAbsX _ | .adcAbsY _ | .adcIndX _ | .adcIndY _ => .adc
  | .andImm _ | .andZp _ | .andZpX _ | .andAbs _ | .andAbsX _ | .andAbsY _ | .andIndX _ | .andIndY _ => .and
  | .ldaImm _ | .ldaZp _ | .ldaZpX _ | .ldaAbs _ | .ldaAbsX _ | .ldaAbsY _ | .ldaIndX _ | .ldaIndY _ => .lda
  | .staZp _ | .staZpX _ | .staAbs _ | .staAbsX _ | .staAbsY _ | .staIndX _ | .staIndY _ => .sta
  | .tax => .tax
  | .inx => .inx
  | .brk => .brk

/-- The mode column of R67. -/
def Instr.mode (c : Config) : Instr → Mode
  | .adcImm _ | .andImm _ | .ldaImm _ => .immediate
  | .adcZp _ | .andZp _ | .ldaZp _ | .staZp _ => .zeroPage
  | .adcZpX _ | .andZpX _ | .ldaZpX _ | .staZpX _ => .zeroPageX
  | .adcAbs _ | .andAbs _ | .ldaAbs _ | .staAbs _ => .absolute
  | .adcAbsX _ | .andAbsX _ | .ldaAbsX _ | .staAbsX _ => .absoluteX
  | .adcAbsY _ | .andAbsY _ | .ldaAbsY _ | .staAbsY _ => .absoluteY
  | .adcIndX _ | .andIndX _ | .ldaIndX _ | .staIndX _ => .indirectX
  | .adcIndY _ | .andIndY _ | .staIndY _ => .indirectY
  | .ldaIndY _ => c.ldaB1Mode.mode
  | .tax | .inx | .brk => .implied

/-- The operand field an instruction carries (R61). -/
def Instr.operand : Instr → Operand
  | .adcImm b | .adcZp b | .adcZpX b | .adcIndX b | .adcIndY b => .op8 b
  | .andImm b | .andZp b | .andZpX b | .andIndX b | .andIndY b => .op8 b
  | .ldaImm b | .ldaZp b | .ldaZpX b | .ldaIndX b | .ldaIndY b => .op8 b
  | .staZp b | .staZpX b | .staIndX b | .staIndY b => .op8 b
  | .adcAbs a | .adcAbsX a | .adcAbsY a => .op16 a
  | .andAbs a | .andAbsX a | .andAbsY a => .op16 a
  | .ldaAbs a | .ldaAbsX a | .ldaAbsY a => .op16 a
  | .staAbs a | .staAbsX a | .staAbsY a => .op16 a
  | .tax | .inx | .brk => .none

/-- An instruction is well formed when its form is in scope and its operand is its mode's. The widths of the operands are
in their types, so every term of `Instr` is well formed (`Sys2Proof.Laws.Shape`). -/
def Instr.wf (c : Config) (i : Instr) : Bool :=
  formInScope i.mnemonic (i.mode c) && i.operand.fits (i.mode c)

end Sys2Proof
end

