-- ==== Sys2Proof/Decode.lean ====
section
/-! DEFINITION. The opcode table (30_encoding.md R67), the decoder (R64, R68, R71) and the encoder (R60, R61, R63). -/

namespace Sys2Proof

/-- `hi : lo`, that is `hi * 256 + lo` (00_scope.md R10, R63). -/
def wordOf (hi lo : Byte) : Addr := BitVec.ofNat 16 (hi.toNat * 256 + lo.toNat)

/-- `v[7:0]` of a 16-bit value. -/
def lowByte (v : Addr) : Byte := BitVec.ofNat 8 (v.toNat % 256)

/-- `v[15:8]` of a 16-bit value. -/
def highByte (v : Addr) : Byte := BitVec.ofNat 8 (v.toNat / 256)

/-! ### The opcode table as descriptors -/

/-- The `cycles` field of an opcode's descriptor, from the parameter `CYCLES` (R9, R173). -/
def cyclesOf (c : Config) (op : Byte) : Nat :=
  ((c.cycles.find? fun e => e.opcode == op).map CycleEntry.base).getD 0

/-- One row of R67; its length is its mode's (R62). -/
def tableRow (c : Config) (op : Byte) (n : Mnemonic) (m : Mode) : Descriptor :=
  { opcode := op, mnemonic := n, bytes := m.bytes, cycles := cyclesOf c op, mode := m }

/-- The rows of R67 for ADC. PRESUMED by the spec from the 6502 reference table (log 8). -/
def adcRows (c : Config) : List Descriptor :=
  [tableRow c 0x69 .adc .immediate, tableRow c 0x65 .adc .zeroPage, tableRow c 0x75 .adc .zeroPageX,
   tableRow c 0x6D .adc .absolute, tableRow c 0x7D .adc .absoluteX, tableRow c 0x79 .adc .absoluteY,
   tableRow c 0x61 .adc .indirectX, tableRow c 0x71 .adc .indirectY]

/-- The rows of R67 for AND (log 8). -/
def andRows (c : Config) : List Descriptor :=
  [tableRow c 0x29 .and .immediate, tableRow c 0x25 .and .zeroPage, tableRow c 0x35 .and .zeroPageX,
   tableRow c 0x2D .and .absolute, tableRow c 0x3D .and .absoluteX, tableRow c 0x39 .and .absoluteY,
   tableRow c 0x21 .and .indirectX, tableRow c 0x31 .and .indirectY]

/-- The rows of R67 for LDA (log 8); `0xB1` has the mode `LDA_B1_MODE` (R70). -/
def ldaRows (c : Config) : List Descriptor :=
  [tableRow c 0xA9 .lda .immediate, tableRow c 0xA5 .lda .zeroPage, tableRow c 0xB5 .lda .zeroPageX,
   tableRow c 0xAD .lda .absolute, tableRow c 0xBD .lda .absoluteX, tableRow c 0xB9 .lda .absoluteY,
   tableRow c 0xA1 .lda .indirectX, tableRow c 0xB1 .lda c.ldaB1Mode.mode]

/-- The rows of R67 for STA (log 8); no Immediate (R124). -/
def staRows (c : Config) : List Descriptor :=
  [tableRow c 0x85 .sta .zeroPage, tableRow c 0x95 .sta .zeroPageX, tableRow c 0x8D .sta .absolute,
   tableRow c 0x9D .sta .absoluteX, tableRow c 0x99 .sta .absoluteY, tableRow c 0x81 .sta .indirectX,
   tableRow c 0x91 .sta .indirectY]

/-- The implied rows of R67. -/
def impliedRows (c : Config) : List Descriptor :=
  [tableRow c 0xAA .tax .implied, tableRow c 0xE8 .inx .implied, tableRow c 0x00 .brk .implied]

/-- The opcode table: exactly the 34 rows of R67. -/
def opcodeTable (c : Config) : List Descriptor :=
  adcRows c ++ andRows c ++ ldaRows c ++ staRows c ++ impliedRows c

/-- `TABLE[b]`: the descriptor of an opcode byte, or none (R64, R72, R82). -/
def lookupOpcode (c : Config) (b : Byte) : Option Descriptor :=
  (opcodeTable c).find? fun d => d.opcode == b

/-! ### The decoder -/

/-- Why bytes are no instruction. -/
inductive DecodeError where
  /-- The opcode byte has no row (R68, R140). -/
  | unknownOpcode (b : Byte)
  /-- The list ends before the operand bytes of this opcode. Only `decode` on a list can answer it: memory never ends. -/
  | truncated (b : Byte)
  /-- The list is empty. -/
  | noBytes
deriving DecidableEq, Repr

/-- What an opcode byte says of the whole instruction: its format (R61) and, from the operand, the instruction. -/
inductive Shape where
  | f1 (i : Instr)
  | f2 (mk : Byte → Instr)
  | f3 (mk : Addr → Instr)

/-- The decoder's rows for ADC (R67). -/
def adcShapes : List (Byte × Shape) :=
  [(0x69, .f2 .adcImm), (0x65, .f2 .adcZp), (0x75, .f2 .adcZpX), (0x6D, .f3 .adcAbs),
   (0x7D, .f3 .adcAbsX), (0x79, .f3 .adcAbsY), (0x61, .f2 .adcIndX), (0x71, .f2 .adcIndY)]

/-- The decoder's rows for AND (R67). -/
def andShapes : List (Byte × Shape) :=
  [(0x29, .f2 .andImm), (0x25, .f2 .andZp), (0x35, .f2 .andZpX), (0x2D, .f3 .andAbs),
   (0x3D, .f3 .andAbsX), (0x39, .f3 .andAbsY), (0x21, .f2 .andIndX), (0x31, .f2 .andIndY)]

/-- The decoder's rows for LDA (R67). -/
def ldaShapes : List (Byte × Shape) :=
  [(0xA9, .f2 .ldaImm), (0xA5, .f2 .ldaZp), (0xB5, .f2 .ldaZpX), (0xAD, .f3 .ldaAbs),
   (0xBD, .f3 .ldaAbsX), (0xB9, .f3 .ldaAbsY), (0xA1, .f2 .ldaIndX), (0xB1, .f2 .ldaIndY)]

/-- The decoder's rows for STA (R67). -/
def staShapes : List (Byte × Shape) :=
  [(0x85, .f2 .staZp), (0x95, .f2 .staZpX), (0x8D, .f3 .staAbs), (0x9D, .f3 .staAbsX),
   (0x99, .f3 .staAbsY), (0x81, .f2 .staIndX), (0x91, .f2 .staIndY)]

/-- The decoder's rows for the implied instructions (R67). -/
def impliedShapes : List (Byte × Shape) := [(0xAA, .f1 .tax), (0xE8, .f1 .inx), (0x00, .f1 .brk)]

/-- The decoder's rows, in the order of R67. -/
def shapeRows : List (Byte × Shape) := adcShapes ++ andShapes ++ ldaShapes ++ staShapes ++ impliedShapes

/-- Direct indexing by the opcode byte (R64). -/
def shapeOf (b : Byte) : Option Shape := shapeRows.lookup b

/-- Decode the instruction whose opcode byte is `b0` and whose next two bytes in memory are `b1` and `b2`; bytes past its
length are not looked at (R69, R71). Low byte first (R63). -/
def decodeFetched (b0 b1 b2 : Byte) : Except DecodeError Instr :=
  match shapeOf b0 with
  | none => .error (.unknownOpcode b0)
  | some (.f1 i) => .ok i
  | some (.f2 mk) => .ok (mk b1)
  | some (.f3 mk) => .ok (mk (wordOf b2 b1))

/-- Decode the first instruction of a list of bytes, with the bytes after it. Total; refuses by name. -/
def decode (bs : List Byte) : Except DecodeError (Instr × List Byte) :=
  match bs with
  | [] => .error .noBytes
  | b0 :: rest =>
    match shapeOf b0 with
    | none => .error (.unknownOpcode b0)
    | some (.f1 i) => .ok (i, rest)
    | some (.f2 mk) =>
      match rest with
      | b1 :: more => .ok (mk b1, more)
      | [] => .error (.truncated b0)
    | some (.f3 mk) =>
      match rest with
      | b1 :: b2 :: more => .ok (mk (wordOf b2 b1), more)
      | _ => .error (.truncated b0)

/-! ### The encoder -/

/-- The opcode byte of an instruction (the opcode column of R67). -/
def Instr.opcode : Instr → Byte
  | .adcImm _ => 0x69 | .adcZp _ => 0x65 | .adcZpX _ => 0x75 | .adcAbs _ => 0x6D
  | .adcAbsX _ => 0x7D | .adcAbsY _ => 0x79 | .adcIndX _ => 0x61 | .adcIndY _ => 0x71
  | .andImm _ => 0x29 | .andZp _ => 0x25 | .andZpX _ => 0x35 | .andAbs _ => 0x2D
  | .andAbsX _ => 0x3D | .andAbsY _ => 0x39 | .andIndX _ => 0x21 | .andIndY _ => 0x31
  | .ldaImm _ => 0xA9 | .ldaZp _ => 0xA5 | .ldaZpX _ => 0xB5 | .ldaAbs _ => 0xAD
  | .ldaAbsX _ => 0xBD | .ldaAbsY _ => 0xB9 | .ldaIndX _ => 0xA1 | .ldaIndY _ => 0xB1
  | .staZp _ => 0x85 | .staZpX _ => 0x95 | .staAbs _ => 0x8D | .staAbsX _ => 0x9D
  | .staAbsY _ => 0x99 | .staIndX _ => 0x81 | .staIndY _ => 0x91
  | .tax => 0xAA | .inx => 0xE8 | .brk => 0x00

/-- The operand bytes, low byte first (R61, R63). -/
def Operand.encode : Operand → List Byte
  | .none => []
  | .op8 b => [b]
  | .op16 a => [lowByte a, highByte a]

/-- The bytes of an instruction in increasing address order (R60). -/
def encode (i : Instr) : List Byte := i.opcode :: i.operand.encode

/-- The length of an instruction, the `bytes` of its row (R62). -/
def Instr.length (i : Instr) : Nat := 1 + i.operand.encode.length

/-- The descriptor of an instruction's row (R30). -/
def Instr.descriptor (c : Config) (i : Instr) : Descriptor := tableRow c i.opcode i.mnemonic (i.mode c)

/-! ### Words as spec/opcode_table.json numbers them -/

/-- Byte `k` of the number `I = b0 + 256*b1 + 65536*b2` (R61). -/
def tableByte (w k : Nat) : Byte := BitVec.ofNat 8 (w / 256 ^ k % 256)

/-- The instruction the decoder reads from an instruction whose bits are `w` (R61's number `I`), every bit above `nbits` 0. -/
def decodeTableWord (nbits w : Nat) : Option Instr :=
  match decodeFetched (tableByte (w % 2 ^ nbits) 0) (tableByte (w % 2 ^ nbits) 1) (tableByte (w % 2 ^ nbits) 2) with
  | .ok i => some i
  | .error _ => none

end Sys2Proof
end

