-- ==== Sys2Proof/Machine/Parameters.lean ====
section
/-! DEFINITION. The values the spec takes for its parameters (00_scope.md R9, 92_eei_decisions.md D1 to D4, D7, D8, D19). -/

namespace Sys2Proof

/-- The cycle column of R67. PRESUMED (log 10): the values come from the 6502 reference table; nothing reads them. -/
def cyclesOfR67 : List CycleEntry :=
  [⟨0x69, 2, false⟩, ⟨0x65, 3, false⟩, ⟨0x75, 4, false⟩, ⟨0x6D, 4, false⟩,
   ⟨0x7D, 4, true⟩, ⟨0x79, 4, true⟩, ⟨0x61, 6, false⟩, ⟨0x71, 5, true⟩] ++
  [⟨0x29, 2, false⟩, ⟨0x25, 3, false⟩, ⟨0x35, 4, false⟩, ⟨0x2D, 4, false⟩,
   ⟨0x3D, 4, true⟩, ⟨0x39, 4, true⟩, ⟨0x21, 6, false⟩, ⟨0x31, 5, true⟩] ++
  [⟨0xA9, 2, false⟩, ⟨0xA5, 3, false⟩, ⟨0xB5, 4, false⟩, ⟨0xAD, 4, false⟩,
   ⟨0xBD, 4, true⟩, ⟨0xB9, 4, true⟩, ⟨0xA1, 6, false⟩, ⟨0xB1, 5, true⟩] ++
  [⟨0x85, 3, false⟩, ⟨0x95, 4, false⟩, ⟨0x8D, 4, false⟩, ⟨0x9D, 5, false⟩,
   ⟨0x99, 5, false⟩, ⟨0x81, 6, false⟩, ⟨0x91, 6, false⟩] ++
  [⟨0xAA, 2, false⟩, ⟨0xE8, 2, false⟩, ⟨0x00, 7, false⟩]

/-- The values the spec takes (R9). DESIGN CHOICE of the spec, or PRESUMED by it from the 6502 family: log 2 to 7
and log 10 say which, one parameter each. -/
def Config.taken : Config where
  loadBase := 0x8000
  resetVector := 0xFFFC
  resetClearsY := true
  ldaB1Mode := .indirectY
  zpPtrWrap := .page0
  wordAtTop := .fault
  cycles := cyclesOfR67

end Sys2Proof
end

