-- ==== Sys2Proof/Machine/State.lean ====
section
/-! DEFINITION. The state of the block (10_state.md R20), its faults (60_exceptions.md R143) and its state after reset
(10_state.md R32). Plain data throughout. -/

namespace Sys2Proof.Machine

/-- The three error kinds (R143). -/
inductive Fault where
  /-- The fetched byte has no row in the opcode table (R140). Raised by the decode of `step`, for the 222 undecoded bytes.
  Safe: the machine stops where a larger implementation might go on (D5). -/
  | unknownOpcode (b : Byte)
  /-- The resolver was called with Implied (R96, R141). Raised by `resolve` only, and no step reaches it. Safe. -/
  | invalidAddressingMode
  /-- A word access at `0xFFFF` under `WORD_AT_TOP = fault` (R48, R142), raised by the absolute forms of ADC, AND, LDA and
  STA whose opcode is at `0xFFFE`, or an image that does not fit, raised by `load` (R163). Safe: the machine stops
  where an implementation that wraps would go on (D8). -/
  | memoryAddressOutOfRange
deriving DecidableEq, Repr

/-- Why `exec` has no meaning for an instruction. Every instruction of this model has one, so no step answers it. -/
inductive Refusal where
  /-- An arm of `exec` that has no meaning yet would answer this, by the table's mnemonic. No arm does. Safe. -/
  | notModelled (mnemonic : String)
deriving DecidableEq, Repr

/-- The run state RS (R27). -/
inductive RunState where
  /-- The block may step. -/
  | ready
  /-- BRK ended the run (R130); a later step resumes at PC (R89). -/
  | halted
  /-- A step raised a fault (R145); no step runs until reset (R89, R147). -/
  | faulted (k : Fault)
deriving DecidableEq, Repr

/-- The memory M (R40): the cells that differ from 0, as (address, byte) pairs with strictly rising addresses below 65536.
A cell that is not listed reads as 0, the value every cell has at construction (R41). -/
abbrev Memory := List Host.Cell

/-- The whole state of the block, the tuple (A, X, Y, P, PC, M, RS) of R20. -/
structure State where
  /-- Accumulator A. -/
  a : Byte
  /-- Index register X. -/
  x : Byte
  /-- Index register Y. -/
  y : Byte
  /-- Status register P: C bit 0, Z bit 1, V bit 6, N bit 7; bits 2 to 5 are storage (R24, R25). -/
  p : Byte
  /-- Program counter PC (R28). -/
  pc : Addr
  /-- Memory M. -/
  mem : Memory
  /-- Run state RS. -/
  rs : RunState
deriving DecidableEq, Repr

/-- The state after `construct` (R160, R32). -/
def State.construct : State :=
  { a := 0, x := 0, y := 0, p := 0, pc := 0, mem := [], rs := .ready }

/-- The state after `construct` and then `reset` with nothing loaded (R164): the vector cells hold 0, so PC is `0x0000`
(R166). Log 14 says how a program comes to run from here. -/
def State.reset : State :=
  { a := 0x00, x := 0x00, y := 0x00, p := 0x00, pc := 0x0000, mem := [], rs := .ready }

/-- An outcome of this machine. -/
abbrev Outcome := Host.Outcome State Fault Refusal

end Sys2Proof.Machine
end

