-- ==== Sys2Proof/Machine/Ops.lean ====
section
/-! DEFINITION. The named operations: memory (20_memory.md), registers (10_state.md R22, R23, 60_exceptions.md R153),
the program counter (R81, R85), taking a fault (R145) and ending a step. -/

namespace Sys2Proof.Machine

/-! ### Memory -/

/-- The canonical form: addresses strictly rising and below 65536, and no listed cell equal to 0. -/
def Memory.wf : Memory → Bool
  | [] => true
  | [c] => decide (c.1 < 65536) && c.2 != 0
  | c :: d :: m => decide (c.1 < d.1) && c.2 != 0 && Memory.wf (d :: m)

/-- The cell at key `k`; a key that is not listed reads as 0 (R41, R52). -/
def Memory.cell : Memory → Nat → Byte
  | [], _ => 0
  | c :: m, k => if c.1 = k then c.2 else Memory.cell m k

/-- Drop what is listed for a key. -/
def Memory.erase (m : Memory) (k : Nat) : Memory := m.filter fun c => c.1 != k

/-- List a cell at its place, for a key that is not listed. -/
def Memory.insert : Memory → Nat → Byte → Memory
  | [], k, v => [(k, v)]
  | c :: m, k, v => if k < c.1 then (k, v) :: c :: m else c :: Memory.insert m k v

/-- Set the cell at key `k`; a cell set to 0 is not listed. -/
def Memory.setCell (m : Memory) (k : Nat) (v : Byte) : Memory :=
  if v = 0 then m.erase k else (m.erase k).insert k v

/-- `MemRead(a, 1)` (R46). -/
def Memory.read (m : Memory) (a : Addr) : Byte := m.cell a.toNat

/-- `MemWrite(a, 1, v)` (R47). -/
def Memory.write (m : Memory) (a : Addr) (v : Byte) : Memory := m.setCell a.toNat v

/-- Does a word access at `a` fault? Only at `0xFFFF` under `WORD_AT_TOP = fault` (R48, R49, log 7). -/
def wordFaults (c : Config) (a : Addr) : Bool := a == 0xFFFF && c.wordAtTop == .fault

/-- `MemRead(a, 2)` (R48). With `wrap` the high byte of a word at `0xFFFF` is at `0x0000`, which is `a + 1` mod 65536. -/
def Memory.readWord (c : Config) (m : Memory) (a : Addr) : Except Fault Addr :=
  if wordFaults c a then .error .memoryAddressOutOfRange
  else .ok (wordOf (m.read (a + 1)) (m.read a))

/-- `MemWrite(a, 2, v)` (R49): low byte first; a fault writes neither cell. -/
def Memory.writeWord (c : Config) (m : Memory) (a : Addr) (v : Addr) : Except Fault Memory :=
  if wordFaults c a then .error .memoryAddressOutOfRange
  else .ok ((m.write a (lowByte v)).write (a + 1) (highByte v))

/-- Write bytes at rising addresses, wrapping modulo 65536. -/
def Memory.writeBytes (m : Memory) (a : Addr) : List Byte → Memory
  | [] => m
  | b :: bs => Memory.writeBytes (m.write a b) (a + 1) bs

/-! ### Registers

The one home of every register write (R22, R23). The host's write accessors are the same operations (R153); its read
accessors are the fields. -/

/-- `A <- v`. -/
def State.setA (s : State) (v : Byte) : State := { s with a := v }

/-- `X <- v`. -/
def State.setX (s : State) (v : Byte) : State := { s with x := v }

/-- `Y <- v`: `reset` and the host only (R23, R126). -/
def State.setY (s : State) (v : Byte) : State := { s with y := v }

/-- `P <- v`, all eight bits (R25, R33). -/
def State.setP (s : State) (v : Byte) : State := { s with p := v }

/-- `PC <- v`. -/
def State.setPc (s : State) (v : Addr) : State := { s with pc := v }

/-- Replace the memory. -/
def State.setMem (s : State) (m : Memory) : State := { s with mem := m }

/-- `RS <- r`. -/
def State.setRs (s : State) (r : RunState) : State := { s with rs := r }

/-- `M[ea]` of a state. -/
def State.load (s : State) (ea : Addr) : Byte := s.mem.read ea

/-- `M[ea] <- v` of a state (R122, and the host's memory accessor, R153). -/
def State.store (s : State) (ea : Addr) (v : Byte) : State := s.setMem (s.mem.write ea v)

/-! ### The program counter -/

/-- What fetch does to the state (R80, R81): RS <- Ready and PC <- PC + 1, so that PC is the first operand byte's address. -/
def State.fetched (s : State) : State := (s.setRs .ready).setPc (s.pc + 1)

/-- Advance over `bytes - 1` operand bytes, modulo 65536 (R85). -/
def State.advance (s : State) (bytes : Nat) : State := s.setPc (s.pc + BitVec.ofNat 16 (bytes - 1))

/-! ### Faults -/

/-- Fault entry (R145): RS <- Faulted(k). Nothing is saved, no other register changes, no vector is taken. There is no
return from a fault (R147): only `resetBlock` and `construct` clear it. -/
def State.raise (s : State) (k : Fault) : State := s.setRs (.faulted k)

/-- End a step whose handler ran to its end in `t`: advance (R85). -/
def endStep (bytes : Nat) (t : State) : Outcome := .next (t.advance bytes)

/-- Run an addressed handler (R83, R87): where the resolver raised, the step stops there with the fault taken and neither the
handler nor the advance runs; otherwise the handler runs at the effective address and the step advances. -/
def withAddress (bytes : Nat) (ea : Except Fault Addr) (s : State) (handler : Addr → State) : Outcome :=
  match ea with
  | .error k => .next (s.raise k)
  | .ok a => endStep bytes (handler a)

/-- Run a handler that reads its operand byte at the effective address (ADC, AND, LDA). -/
def withOperand (bytes : Nat) (ea : Except Fault Addr) (s : State) (handler : Byte → State → State) : Outcome :=
  withAddress bytes ea s fun a => handler (s.load a) s

/-! ### Fetching -/

/-- The byte `k` places after PC, modulo 65536 (R28, R60, R81). -/
def State.codeByte (s : State) (k : Nat) : Byte := s.load (s.pc + BitVec.ofNat 16 k)

/-- What the decoder reads from the bytes at PC (R82, log 12). -/
def State.decodeHere (s : State) : Except DecodeError Instr :=
  decodeFetched (s.codeByte 0) (s.codeByte 1) (s.codeByte 2)

/-- A state that may step: `Ready` as it is, `Halted` as it is, a fault cleared (log 24). -/
def State.clearFault (s : State) : State :=
  match s.rs with
  | .faulted _ => s.setRs .ready
  | .ready | .halted => s

/-- Lay bytes out at PC in rising addresses, for `State.withFetchWord`. -/
def State.placeAtPc (s : State) (bs : List Byte) : State := s.setMem (s.mem.writeBytes s.pc bs)

end Sys2Proof.Machine
end

