-- ==== Sys2Proof/Machine/Flags.lean ====
section
/-! DEFINITION. The status register's flags (10_state.md R24) and every flag computation (42_alu.md R110, R112). -/

namespace Sys2Proof.Machine

/-- The four flags of P (R24). -/
inductive Flag where
  | c
  | z
  | v
  | n
deriving DecidableEq, Repr

/-- The bit of P a flag is (R24). -/
def Flag.bit : Flag → Nat
  | .c => 0
  | .z => 1
  | .v => 6
  | .n => 7

/-- The flag of a status byte. -/
def flagOf (p : Byte) (f : Flag) : Bool := p.getLsbD f.bit

/-- Write one flag; every other bit keeps its value (R24). -/
def setFlag (p : Byte) (f : Flag) (b : Bool) : Byte :=
  if b then p ||| BitVec.twoPow 8 f.bit else p &&& ~~~(BitVec.twoPow 8 f.bit)

/-- `P.C`, `P.Z`, `P.V`, `P.N` of a state (R11). -/
def State.flag (s : State) (f : Flag) : Bool := flagOf s.p f

/-- `UpdateZN(v)` on a status byte (R110). -/
def updateZN (v : Byte) (p : Byte) : Byte := setFlag (setFlag p .z (v == 0)) .n (v.getLsbD 7)

/-- `wide` of ADC: the exact sum, 0 to 511 (R112). -/
def adcWide (a m : Byte) (cin : Bool) : Nat := a.toNat + m.toNat + cin.toNat

/-- `r` of ADC: `wide mod 256` (R112). -/
def adcResult (a m : Byte) (cin : Bool) : Byte := BitVec.ofNat 8 (adcWide a m cin)

/-- The carry of ADC: `wide > 255` (R112). -/
def adcCarry (a m : Byte) (cin : Bool) : Bool := decide (adcWide a m cin > 255)

/-- The overflow of ADC: `((A ^ r) & (m ^ r) & 0x80) != 0` (R112). -/
def adcOverflow (a m : Byte) (cin : Bool) : Bool :=
  ((a ^^^ adcResult a m cin) &&& (m ^^^ adcResult a m cin) &&& 0x80#8) != 0#8

/-- P after ADC: C, V, then Z and N from the result (R112). -/
def adcStatus (a m p : Byte) : Byte :=
  updateZN (adcResult a m (flagOf p .c))
    (setFlag (setFlag p .c (adcCarry a m (flagOf p .c))) .v (adcOverflow a m (flagOf p .c)))

end Sys2Proof.Machine
end

