-- ==== Sys2Proof/Machine/Operands.lean ====
section
/-! DEFINITION. The address resolver (41_addressing.md): the effective address of every mode from its operand, and
`Resolve(mode, pc)` of R95, which reads the operand in memory. None of them writes anything (R108). -/

namespace Sys2Proof.Machine

/-- `zext_16` (R10). -/
def zext16 (b : Byte) : Addr := BitVec.ofNat 16 b.toNat

/-- The zero-page pointer read `ZpPtr(p)` (R97, log 6). -/
def zpPtr (c : Config) (m : Memory) (p : Byte) : Addr :=
  wordOf
    (match c.zpPtrWrap with
      | .page0 => m.read (zext16 (p + 1))
      | .linear => m.read (zext16 p + 1))
    (m.read (zext16 p))

/-- ZeroPage (R99). -/
def eaZeroPage (op : Byte) : Addr := zext16 op

/-- ZeroPageX (R100): the sum wraps in page 0. -/
def eaZeroPageX (op : Byte) (s : State) : Addr := zext16 (op + s.x)

/-- ZeroPageY (R101): no row uses it. -/
def eaZeroPageY (op : Byte) (s : State) : Addr := zext16 (op + s.y)

/-- IndirectX (R105): the pointer wraps in page 0 before it is read. -/
def eaIndirectX (c : Config) (op : Byte) (s : State) : Addr := zpPtr c s.mem (op + s.x)

/-- IndirectY (R106): the pointer is read before Y is added. -/
def eaIndirectY (c : Config) (op : Byte) (s : State) : Addr := zpPtr c s.mem op + zext16 s.y

/-- Opcode `0xB1`: the mode `LDA_B1_MODE` (R70, R121, log 5). -/
def eaOfB1 (c : Config) (op : Byte) (s : State) : Addr :=
  match c.ldaB1Mode with
  | .indirectY => eaIndirectY c op s
  | .indirectX => eaIndirectX c op s

/-- The 16-bit operand `ad` of an instruction whose first operand byte is at PC: the word read that fetches it faults at
`0xFFFF` under `WORD_AT_TOP = fault` (R102). -/
def operandWord (c : Config) (ad : Addr) (s : State) : Except Fault Addr :=
  if wordFaults c s.pc then .error .memoryAddressOutOfRange else .ok ad

/-- Absolute (R102). -/
def eaAbsolute (c : Config) (ad : Addr) (s : State) : Except Fault Addr := operandWord c ad s

/-- AbsoluteX (R103): the sum wraps modulo 65536. -/
def eaAbsoluteX (c : Config) (ad : Addr) (s : State) : Except Fault Addr :=
  (operandWord c ad s).map fun base => base + zext16 s.x

/-- AbsoluteY (R104). -/
def eaAbsoluteY (c : Config) (ad : Addr) (s : State) : Except Fault Addr :=
  (operandWord c ad s).map fun base => base + zext16 s.y

/-- `Resolve(mode, pc)` (R95 to R106): the operand bytes are read in memory at `pc`. -/
def resolve (c : Config) (m : Mode) (pc : Addr) (s : State) : Except Fault Addr :=
  match m with
  | .implied => .error .invalidAddressingMode
  | .immediate => .ok pc
  | .zeroPage => .ok (eaZeroPage (s.load pc))
  | .zeroPageX => .ok (eaZeroPageX (s.load pc) s)
  | .zeroPageY => .ok (eaZeroPageY (s.load pc) s)
  | .absolute => s.mem.readWord c pc
  | .absoluteX => (s.mem.readWord c pc).map fun base => base + zext16 s.x
  | .absoluteY => (s.mem.readWord c pc).map fun base => base + zext16 s.y
  | .indirectX => .ok (eaIndirectX c (s.load pc) s)
  | .indirectY => .ok (eaIndirectY c (s.load pc) s)

end Sys2Proof.Machine
end

