-- ==== Sys2Proof/Machine/Alu.lean ====
section
/-! DEFINITION. ADC and AND (42_alu.md): the two operations on an operand byte, then one meaning per row of the table.

A meaning starts where dispatch does, with PC at the first operand byte, and ends with the step: advanced, or with the
fault taken (log 13). -/

namespace Sys2Proof.Machine

/-- ADC on the operand byte `m` (R112): binary whatever P bit 3 holds (R111). -/
def adcWith (m : Byte) (s : State) : State :=
  (s.setP (adcStatus s.a m s.p)).setA (adcResult s.a m (s.flag .c))

/-- AND on the operand byte `m` (R114). -/
def andWith (m : Byte) (s : State) : State :=
  (s.setA (s.a &&& m)).setP (updateZN (s.a &&& m) s.p)

/-- `0x69` ADC Immediate (R112, R98). -/
def execAdcImm (v : Byte) (s : State) : Outcome := endStep 2 (adcWith v s)

/-- `0x65` ADC ZeroPage (R112, R99). -/
def execAdcZp (zp : Byte) (s : State) : Outcome := withOperand 2 (.ok (eaZeroPage zp)) s adcWith

/-- `0x75` ADC ZeroPageX (R112, R100). -/
def execAdcZpX (zp : Byte) (s : State) : Outcome := withOperand 2 (.ok (eaZeroPageX zp s)) s adcWith

/-- `0x6D` ADC Absolute (R112, R102). -/
def execAdcAbs (ad : Addr) (s : State) : Outcome := withOperand 3 (eaAbsolute Config.taken ad s) s adcWith

/-- `0x7D` ADC AbsoluteX (R112, R103). -/
def execAdcAbsX (ad : Addr) (s : State) : Outcome := withOperand 3 (eaAbsoluteX Config.taken ad s) s adcWith

/-- `0x79` ADC AbsoluteY (R112, R104). -/
def execAdcAbsY (ad : Addr) (s : State) : Outcome := withOperand 3 (eaAbsoluteY Config.taken ad s) s adcWith

/-- `0x61` ADC IndirectX (R112, R105). -/
def execAdcIndX (zp : Byte) (s : State) : Outcome := withOperand 2 (.ok (eaIndirectX Config.taken zp s)) s adcWith

/-- `0x71` ADC IndirectY (R112, R106). -/
def execAdcIndY (zp : Byte) (s : State) : Outcome := withOperand 2 (.ok (eaIndirectY Config.taken zp s)) s adcWith

/-- `0x29` AND Immediate (R114, R98). -/
def execAndImm (v : Byte) (s : State) : Outcome := endStep 2 (andWith v s)

/-- `0x25` AND ZeroPage (R114, R99). -/
def execAndZp (zp : Byte) (s : State) : Outcome := withOperand 2 (.ok (eaZeroPage zp)) s andWith

/-- `0x35` AND ZeroPageX (R114, R100). -/
def execAndZpX (zp : Byte) (s : State) : Outcome := withOperand 2 (.ok (eaZeroPageX zp s)) s andWith

/-- `0x2D` AND Absolute (R114, R102). -/
def execAndAbs (ad : Addr) (s : State) : Outcome := withOperand 3 (eaAbsolute Config.taken ad s) s andWith

/-- `0x3D` AND AbsoluteX (R114, R103). -/
def execAndAbsX (ad : Addr) (s : State) : Outcome := withOperand 3 (eaAbsoluteX Config.taken ad s) s andWith

/-- `0x39` AND AbsoluteY (R114, R104). -/
def execAndAbsY (ad : Addr) (s : State) : Outcome := withOperand 3 (eaAbsoluteY Config.taken ad s) s andWith

/-- `0x21` AND IndirectX (R114, R105). -/
def execAndIndX (zp : Byte) (s : State) : Outcome := withOperand 2 (.ok (eaIndirectX Config.taken zp s)) s andWith

/-- `0x31` AND IndirectY (R114, R106). -/
def execAndIndY (zp : Byte) (s : State) : Outcome := withOperand 2 (.ok (eaIndirectY Config.taken zp s)) s andWith

end Sys2Proof.Machine
end

