-- ==== Sys2Proof/Machine/Control.lean ====
section
/-! DEFINITION. BRK (45_control.md): it halts the execution loop and does nothing else (R130, R131, C7). -/

namespace Sys2Proof.Machine

/-- BRK's handler (R130): RS <- Halted. -/
def brkOf (s : State) : State := s.setRs .halted

/-- `0x00` BRK (R130, R86). -/
def execBrk (s : State) : Outcome := endStep 1 (brkOf s)

end Sys2Proof.Machine
end

