-- ==== Sys2Proof/Machine/LoadStore.lean ====
section
/-! DEFINITION. LDA and STA (43_load_store.md). Meanings start and end as in Alu.lean (log 13). -/

namespace Sys2Proof.Machine

/-- LDA of the operand byte `m` (R120). -/
def ldaWith (m : Byte) (s : State) : State := (s.setA m).setP (updateZN m s.p)

/-- STA at the effective address (R122): no flag, no register. -/
def staAt (s : State) (ea : Addr) : State := s.store ea s.a

/-- `0xA9` LDA Immediate (R120, R98). -/
def execLdaImm (v : Byte) (s : State) : Outcome := endStep 2 (ldaWith v s)

/-- `0xA5` LDA ZeroPage (R120, R99). -/
def execLdaZp (zp : Byte) (s : State) : Outcome := withOperand 2 (.ok (eaZeroPage zp)) s ldaWith

/-- `0xB5` LDA ZeroPageX (R120, R100). -/
def execLdaZpX (zp : Byte) (s : State) : Outcome := withOperand 2 (.ok (eaZeroPageX zp s)) s ldaWith

/-- `0xAD` LDA Absolute (R120, R102). -/
def execLdaAbs (ad : Addr) (s : State) : Outcome := withOperand 3 (eaAbsolute Config.taken ad s) s ldaWith

/-- `0xBD` LDA AbsoluteX (R120, R103). -/
def execLdaAbsX (ad : Addr) (s : State) : Outcome := withOperand 3 (eaAbsoluteX Config.taken ad s) s ldaWith

/-- `0xB9` LDA AbsoluteY (R120, R104). -/
def execLdaAbsY (ad : Addr) (s : State) : Outcome := withOperand 3 (eaAbsoluteY Config.taken ad s) s ldaWith

/-- `0xA1` LDA IndirectX (R120, R105). -/
def execLdaIndX (zp : Byte) (s : State) : Outcome := withOperand 2 (.ok (eaIndirectX Config.taken zp s)) s ldaWith

/-- `0xB1` LDA in the mode `LDA_B1_MODE` (R120, R121, C2, log 5). -/
def execLdaIndY (zp : Byte) (s : State) : Outcome := withOperand 2 (.ok (eaOfB1 Config.taken zp s)) s ldaWith

/-- `0x85` STA ZeroPage (R122, R99). -/
def execStaZp (zp : Byte) (s : State) : Outcome := withAddress 2 (.ok (eaZeroPage zp)) s (staAt s)

/-- `0x95` STA ZeroPageX (R122, R100). -/
def execStaZpX (zp : Byte) (s : State) : Outcome := withAddress 2 (.ok (eaZeroPageX zp s)) s (staAt s)

/-- `0x8D` STA Absolute (R122, R102). -/
def execStaAbs (ad : Addr) (s : State) : Outcome := withAddress 3 (eaAbsolute Config.taken ad s) s (staAt s)

/-- `0x9D` STA AbsoluteX (R122, R103). -/
def execStaAbsX (ad : Addr) (s : State) : Outcome := withAddress 3 (eaAbsoluteX Config.taken ad s) s (staAt s)

/-- `0x99` STA AbsoluteY (R122, R104). -/
def execStaAbsY (ad : Addr) (s : State) : Outcome := withAddress 3 (eaAbsoluteY Config.taken ad s) s (staAt s)

/-- `0x81` STA IndirectX (R122, R105). -/
def execStaIndX (zp : Byte) (s : State) : Outcome := withAddress 2 (.ok (eaIndirectX Config.taken zp s)) s (staAt s)

/-- `0x91` STA IndirectY (R122, R106). -/
def execStaIndY (zp : Byte) (s : State) : Outcome := withAddress 2 (.ok (eaIndirectY Config.taken zp s)) s (staAt s)

end Sys2Proof.Machine
end

