-- ==== Sys2Proof/Machine/Register.lean ====
section
/-! DEFINITION. TAX and INX (44_register.md). Neither calls the resolver (40_execution_loop.md R84). -/

namespace Sys2Proof.Machine

/-- TAX's handler (R125). -/
def taxOf (s : State) : State := (s.setX s.a).setP (updateZN s.a s.p)

/-- INX's handler (R127): wraps, and C and V keep their values. -/
def inxOf (s : State) : State := (s.setX (s.x + 1)).setP (updateZN (s.x + 1) s.p)

/-- `0xAA` TAX (R125). -/
def execTax (s : State) : Outcome := endStep 1 (taxOf s)

/-- `0xE8` INX (R127). -/
def execInx (s : State) : Outcome := endStep 1 (inxOf s)

end Sys2Proof.Machine
end

