-- ==== Sys2Proof/Machine/Dispatch.lean ====
section
/-! DEFINITION. Dispatch (40_execution_loop.md R83, R84): one arm per row of the opcode table. `exec i s` runs `i` from
dispatch to the end of its step; `s` is the state after fetch, with PC at the first operand byte. -/

namespace Sys2Proof.Machine

def exec (i : Instr) (s : State) : Host.Outcome State Fault Refusal :=
  match i with
  | .adcImm v => Sys2Proof.Machine.execAdcImm v s
  | .adcZp zp => Sys2Proof.Machine.execAdcZp zp s
  | .adcZpX zp => Sys2Proof.Machine.execAdcZpX zp s
  | .adcAbs ad => Sys2Proof.Machine.execAdcAbs ad s
  | .adcAbsX ad => Sys2Proof.Machine.execAdcAbsX ad s
  | .adcAbsY ad => Sys2Proof.Machine.execAdcAbsY ad s
  | .adcIndX zp => Sys2Proof.Machine.execAdcIndX zp s
  | .adcIndY zp => Sys2Proof.Machine.execAdcIndY zp s
  | .andImm v => Sys2Proof.Machine.execAndImm v s
  | .andZp zp => Sys2Proof.Machine.execAndZp zp s
  | .andZpX zp => Sys2Proof.Machine.execAndZpX zp s
  | .andAbs ad => Sys2Proof.Machine.execAndAbs ad s
  | .andAbsX ad => Sys2Proof.Machine.execAndAbsX ad s
  | .andAbsY ad => Sys2Proof.Machine.execAndAbsY ad s
  | .andIndX zp => Sys2Proof.Machine.execAndIndX zp s
  | .andIndY zp => Sys2Proof.Machine.execAndIndY zp s
  | .ldaImm v => Sys2Proof.Machine.execLdaImm v s
  | .ldaZp zp => Sys2Proof.Machine.execLdaZp zp s
  | .ldaZpX zp => Sys2Proof.Machine.execLdaZpX zp s
  | .ldaAbs ad => Sys2Proof.Machine.execLdaAbs ad s
  | .ldaAbsX ad => Sys2Proof.Machine.execLdaAbsX ad s
  | .ldaAbsY ad => Sys2Proof.Machine.execLdaAbsY ad s
  | .ldaIndX zp => Sys2Proof.Machine.execLdaIndX zp s
  | .ldaIndY zp => Sys2Proof.Machine.execLdaIndY zp s
  | .staZp zp => Sys2Proof.Machine.execStaZp zp s
  | .staZpX zp => Sys2Proof.Machine.execStaZpX zp s
  | .staAbs ad => Sys2Proof.Machine.execStaAbs ad s
  | .staAbsX ad => Sys2Proof.Machine.execStaAbsX ad s
  | .staAbsY ad => Sys2Proof.Machine.execStaAbsY ad s
  | .staIndX zp => Sys2Proof.Machine.execStaIndX zp s
  | .staIndY zp => Sys2Proof.Machine.execStaIndY zp s
  | .tax => Sys2Proof.Machine.execTax s
  | .inx => Sys2Proof.Machine.execInx s
  | .brk => Sys2Proof.Machine.execBrk s

end Sys2Proof.Machine
end

