-- ==== Sys2Proof/Machine/Cycle.lean ====
section
/-! DEFINITION. One step (40_execution_loop.md R80) over decoded instructions: fetch, decode, dispatch, advance. Step.lean
gives it its fixed name. Loop.lean writes the same step over the opcode table, as R80's pseudocode has it. -/

namespace Sys2Proof.Machine

/-- Fetch, decode and execute, in a state that may step (R80 to R87). A byte with no row takes the fault UnknownOpcode with
that byte, after the fetch's increment of PC (R82, R87, R140). -/
def fetchDecodeExecute (s : State) : Outcome :=
  match s.decodeHere with
  | .error _ => .next (s.fetched.raise (.unknownOpcode (s.codeByte 0)))
  | .ok i => exec i s.fetched

/-- One step (R89): a faulted block performs no step and answers its fault again; a ready or halted block steps. The step that
raises a fault answers the next state with RS = Faulted (R145, log 1). -/
def oneStep (s : State) : Outcome :=
  match s.rs with
  | .faulted k => .fault k
  | .ready | .halted => fetchDecodeExecute s

/-- The three bytes of the number `w` whose bits from `nbits` up are 0 (R61), at PC, in a state that may step. -/
def fetchWordAt (s : State) (nbits w : Nat) : State :=
  s.clearFault.placeAtPc
    [tableByte (w % 2 ^ nbits) 0, tableByte (w % 2 ^ nbits) 1, tableByte (w % 2 ^ nbits) 2]

end Sys2Proof.Machine
end

