-- ==== Sys2Proof/Machine/Step.lean ====
section
/-! DEFINITION. The step of the machine under its fixed names (40_execution_loop.md R80, R89, R91). -/

namespace Sys2Proof.Machine

/-- One step of the block. -/
def step (s : State) : Host.Outcome State Fault Refusal := oneStep s

/-- `s` with the instruction whose bits are `w` stored at PC, where `step` fetches, and able to step. This stands for the load
of a program from outside the machine (log 14). -/
def State.withFetchWord (s : State) (nbits w : Nat) : State := fetchWordAt s nbits w

end Sys2Proof.Machine
end

