-- ==== Sys2Proof/Machine/Loop.lean ====
section
/-! DEFINITION. The step as 40_execution_loop.md R80 writes it, for any values of the parameters: the table looked up by the
fetched byte, the handler called by mnemonic, the operand read in memory by `Resolve(mode, PC)`. The host operations
(HostInterface.lean) run this step; an obligation says that `step` is this one at `Config.taken`. -/

namespace Sys2Proof.Machine

/-- `Handler[d.mnemonic](d.mode)` (R66, R80, R83, R84). -/
def handler (c : Config) (d : Descriptor) (s : State) : Except Fault State :=
  match d.mnemonic with
  | .adc => (resolve c d.mode s.pc s).map fun ea => adcWith (s.load ea) s
  | .and => (resolve c d.mode s.pc s).map fun ea => andWith (s.load ea) s
  | .lda => (resolve c d.mode s.pc s).map fun ea => ldaWith (s.load ea) s
  | .sta => (resolve c d.mode s.pc s).map fun ea => staAt s ea
  | .tax => .ok (taxOf s)
  | .inx => .ok (inxOf s)
  | .brk => .ok (brkOf s)

/-- Decode, dispatch and advance after the fetch of `b` (R82 to R87). -/
def dispatchByte (c : Config) (b : Byte) (s : State) : State :=
  match lookupOpcode c b with
  | none => s.raise (.unknownOpcode b)
  | some d =>
    match handler c d s with
    | .error k => s.raise k
    | .ok t => t.advance d.bytes

/-- `Step()` of R80, with R89: no step in a faulted state, and the state does not change. -/
def loopStep (c : Config) (s : State) : State :=
  match s.rs with
  | .faulted _ => s
  | .ready | .halted => dispatchByte c (s.load s.pc) s.fetched

end Sys2Proof.Machine
end

