-- ==== Sys2Proof/Machine/HostInterface.lean ====
section
/-! DEFINITION. The block's host operations (00_scope.md R13): load, reset, step, run and load_and_run, for any values of the
parameters. `construct` is `State.construct` (R160). The accessors (R153) are the fields of State, `State.load`, the
register writes of Ops.lean and `State.store`; none of them changes RS. -/

namespace Sys2Proof.Machine

/-- What `run` and `step` return (R14). -/
inductive Result where
  | ok
  | err (k : Fault)
deriving DecidableEq, Repr

/-- The result a run state stands for after a step (R91, R145). -/
def RunState.result : RunState → Result
  | .faulted k => .err k
  | .ready | .halted => .ok

/-- `load(bytes)` (R162, R163): the image, then the vector, so that an image that covers the vector cells has them replaced.
An image that does not fit writes nothing. -/
def loadImage (c : Config) (bytes : List Byte) (s : State) : Except Fault State :=
  if c.loadBase.toNat + bytes.length > 65536 then .error .memoryAddressOutOfRange
  else
    ((s.mem.writeBytes c.loadBase bytes).writeWord c c.resetVector c.loadBase).map s.setMem

/-- `reset()` (R164, R165). Where the parameters are well formed (`Config.wf`) the vector's word read never faults. -/
def resetBlock (c : Config) (s : State) : Except Fault State :=
  (s.mem.readWord c c.resetVector).map fun vector =>
    ((((s.setA 0).setX 0).setY (if c.resetClearsY then 0 else s.y)).setP 0 |>.setPc vector).setRs .ready

/-- `step()` (R91): one step, and what it returns. -/
def stepOp (c : Config) (s : State) : State × Result := (loopStep c s, (loopStep c s).rs.result)

/-- `run()` (R90, R92) under fuel: none means "not finished", never a halt. -/
def runOp (c : Config) : Nat → State → Option (State × Result)
  | 0, _ => none
  | n + 1, s =>
    match (loopStep c s).rs with
    | .ready => runOp c n (loopStep c s)
    | .halted => some (loopStep c s, .ok)
    | .faulted k => some (loopStep c s, .err k)

/-- `load_and_run(bytes)` (R167): load, reset, run; a refused image is neither reset nor run. -/
def loadAndRun (c : Config) (fuel : Nat) (bytes : List Byte) (s : State) : Option (State × Result) :=
  match loadImage c bytes s with
  | .error k => some (s, .err k)
  | .ok t =>
    match resetBlock c t with
    | .error k => some (t, .err k)
    | .ok u => runOp c fuel u

end Sys2Proof.Machine
end

