-- ==== Sys2Proof/Safety.lean ====
section
/-! DEFINITION. What counts as a safe run, and the terms the statements use: the invariant of the machine, what a step or an
instruction leaves unchanged, and the effect of each kind of instruction as the rules word it. -/

namespace Sys2Proof.Machine

/-! ### Safe runs and the invariant -/

/-- No fault has been taken: a run is safe while its states are (R143, R169). -/
def State.safe (s : State) : Prop := ∀ k, s.rs ≠ .faulted k

/-- The opcode column of R67, written out for the statements: 34 bytes; the other 222 are undecoded (R68). -/
def opcodesOfR67 : List Byte :=
  [0x69, 0x65, 0x75, 0x6D, 0x7D, 0x79, 0x61, 0x71, 0x29, 0x25, 0x35, 0x2D, 0x3D, 0x39, 0x21, 0x31,
   0xA9, 0xA5, 0xB5, 0xAD, 0xBD, 0xB9, 0xA1, 0xB1, 0x85, 0x95, 0x8D, 0x9D, 0x99, 0x81, 0x91, 0xAA, 0xE8, 0x00]

/-- The row of an opcode byte has a 16-bit operand (R62): the Absolute, AbsoluteX and AbsoluteY forms. -/
def hasWordOperand (b : Byte) : Prop := ∃ d, lookupOpcode Config.taken b = some d ∧ d.bytes = 3

/-- What the run state says of the instruction just before PC. A halt stands after a BRK (R86). A fault stands one byte after
the faulting instruction's opcode (R146): an undecoded byte that is the one in the error (R140), or a form with a 16-bit
operand whose opcode is at `0xFFFE` (R142). InvalidAddressingMode is reached by no step (R141). -/
def State.runStateFits (s : State) : Prop :=
  match s.rs with
  | .ready => True
  | .halted => s.load (s.pc - 1) = 0x00
  | .faulted (.unknownOpcode b) => s.load (s.pc - 1) = b ∧ lookupOpcode Config.taken b = none
  | .faulted .invalidAddressingMode => False
  | .faulted .memoryAddressOutOfRange => s.pc = 0xFFFF ∧ hasWordOperand (s.load 0xFFFE)

/-- The invariant: memory keeps its canonical form, and the run state fits the code before PC. -/
def State.Inv (s : State) : Prop := s.mem.wf = true ∧ s.runStateFits

/-! ### What is left unchanged -/

/-- Every byte of memory reads as before. -/
def sameMemory (s t : State) : Prop := ∀ a : Addr, t.load a = s.load a

/-- Every byte of memory but the one at `ea` reads as before. -/
def sameMemoryBut (ea : Addr) (s t : State) : Prop := ∀ a : Addr, a ≠ ea → t.load a = s.load a

/-- The storage bits of P, 2 to 5, are as before (R25). -/
def sameStorageBits (s t : State) : Prop := ∀ i, 2 ≤ i → i ≤ 5 → t.p.getLsbD i = s.p.getLsbD i

/-- C and V are as before. -/
def sameCV (s t : State) : Prop := t.flag .c = s.flag .c ∧ t.flag .v = s.flag .v

/-- Two states that differ at most in bits 2 to 5 of P. -/
def sameButStorageBits (s t : State) : Prop :=
  t.a = s.a ∧ t.x = s.x ∧ t.y = s.y ∧ t.pc = s.pc ∧ t.mem = s.mem ∧ t.rs = s.rs ∧
    ∀ f : Flag, t.flag f = s.flag f

/-! ### The effect of an instruction, as the rules word it -/

/-- Z is set exactly when `v` is 0 and N exactly when bit 7 of `v` is set (R110). -/
def znFrom (v : Byte) (t : State) : Prop := (t.flag .z = true ↔ v.toNat = 0) ∧ (t.flag .n = true ↔ v.toNat ≥ 128)

/-- PC moved `n` bytes, modulo 65536 (R85). -/
def movedOn (n : Nat) (s t : State) : Prop := t.pc.toNat = (s.pc.toNat + n) % 65536

/-- The carry-in of ADC as a number. -/
def State.carryIn (s : State) : Nat := if s.flag .c then 1 else 0

/-- ADC of the byte `m` (R112, R113), advancing `n` bytes: A, C, V, Z and N by the exact unsigned and signed sums, and nothing
else changed. -/
def adcEffect (m : Byte) (n : Nat) (s t : State) : Prop :=
  t.a.toNat = (s.a.toNat + m.toNat + s.carryIn) % 256 ∧
  (t.flag .c = true ↔ s.a.toNat + m.toNat + s.carryIn ≥ 256) ∧
  (t.flag .v = true ↔ s.a.toInt + m.toInt + s.carryIn < -128 ∨ s.a.toInt + m.toInt + s.carryIn > 127) ∧
  znFrom t.a t ∧ sameStorageBits s t ∧ t.x = s.x ∧ t.y = s.y ∧ t.rs = s.rs ∧ sameMemory s t ∧ movedOn n s t

/-- An instruction that writes the value `v` to A and sets Z and N from it, advancing `n` bytes, and nothing else (R114, R120). -/
def writesA (v : Byte) (n : Nat) (s t : State) : Prop :=
  t.a = v ∧ znFrom v t ∧ sameCV s t ∧ sameStorageBits s t ∧ t.x = s.x ∧ t.y = s.y ∧ t.rs = s.rs ∧
    sameMemory s t ∧ movedOn n s t

/-- An instruction that writes the value `v` to X and sets Z and N from it, and nothing else (R125, R127). -/
def writesX (v : Byte) (s t : State) : Prop :=
  t.x = v ∧ znFrom v t ∧ sameCV s t ∧ sameStorageBits s t ∧ t.a = s.a ∧ t.y = s.y ∧ t.rs = s.rs ∧
    sameMemory s t ∧ t.pc = s.pc

/-- STA at the address `ea` (R122): that byte becomes A, every other byte and every register but PC is unchanged. -/
def storesA (ea : Addr) (n : Nat) (s t : State) : Prop :=
  t.load ea = s.a ∧ sameMemoryBut ea s t ∧ t.a = s.a ∧ t.x = s.x ∧ t.y = s.y ∧ t.p = s.p ∧ t.rs = s.rs ∧ movedOn n s t

/-- `exec i s` answers a next state that has the property `P`. -/
def runsTo (i : Instr) (s : State) (P : State → Prop) : Prop := ∃ t, exec i s = .next t ∧ P t

/-- `exec i s` takes the fault `k` and changes nothing but RS (R87, R145). -/
def takesFault (i : Instr) (s : State) (k : Fault) : Prop := exec i s = .next { s with rs := .faulted k }

/-- Run one instruction `n` times, one after the other. -/
def repeatExec (i : Instr) : Nat → State → Option State
  | 0, s => some s
  | n + 1, s =>
    match exec i s with
    | .next t => repeatExec i n t
    | .fault _ => none
    | .refused _ => none

/-- The state an outcome holds, if it is a next state. -/
def nextOf : Outcome → Option State
  | .next s => some s
  | .fault _ => none
  | .refused _ => none

end Sys2Proof.Machine
end

