-- ==== Sys2Proof/Certificates/Slice0/Obligations.lean ====
section
/-! DEFINITION. The statements for the provers, in the order of the spec's files. Each docstring names the rules it formalises. -/

open Sys2Proof Sys2Proof.Machine

/-! ### Encoding (30_encoding.md) -/

/-- Words written out from R61, R67 and R73 decode to the instructions they stand for; `0x89` is no instruction (R124). The opcode
values are the spec's from the 6502 reference table (log 8). -/
def Obligations.WordsWrittenOutDecode : Prop :=
  decode [0x75, 0xFA] = .ok (.adcZpX 0xFA, []) ∧
  decode [0x39, 0xF0, 0xFF] = .ok (.andAbsY 0xFFF0, []) ∧
  decode [0xA9, 0xC0, 0xAA] = .ok (.ldaImm 0xC0, [0xAA]) ∧
  decode [0xB1, 0x40] = .ok (.ldaIndY 0x40, []) ∧
  decode [0x8D, 0x00, 0x02] = .ok (.staAbs 0x0200, []) ∧
  decode [0x81, 0x1B] = .ok (.staIndX 0x1B, []) ∧
  decode [0xAA] = .ok (.tax, []) ∧
  decode [0xE8, 0x00] = .ok (.inx, [0x00]) ∧
  decode [0x00] = .ok (.brk, []) ∧
  decode [0x89, 0x10] = .error (.unknownOpcode 0x89)

/-- Decoding the encoding of any instruction, whatever bytes follow, gives the instruction back with every operand bit, and the
bytes that follow (R60, R61, R63, R71). -/
def Obligations.DecodeOfEncode : Prop :=
  ∀ (i : Instr) (rest : List Byte), decode (encode i ++ rest) = .ok (i, rest)

/-- The other direction: bytes that decode are the encoding of what they decode to, so no two words mean one instruction (R69). -/
def Obligations.DecodedBytesAreItsEncoding : Prop :=
  ∀ (bs : List Byte) (i : Instr) (rest : List Byte), decode bs = .ok (i, rest) → bs = encode i ++ rest

/-- The decoder takes exactly the 34 opcode bytes of R67, whatever the operand bytes; each of the other 222 bytes is refused as an
unknown opcode with its byte (R68, R69). The exact set is the spec's decision D5 (log 9). -/
def Obligations.OnlyTheTableDecodes : Prop :=
  (∀ b b1 b2 : Byte,
    if b ∈ opcodesOfR67 then ∃ i, decodeFetched b b1 b2 = .ok i ∧ i.opcode = b
    else decodeFetched b b1 b2 = .error (.unknownOpcode b)) ∧
  opcodesOfR67.Nodup ∧ opcodesOfR67.length = 256 - 222

/-- The opcode table, for any parameters: 34 rows (R67), at most one row per opcode value (R30, R72), every row a form in scope with
its mode's length (R5, R62, R66), and a lookup finds a row exactly by its opcode (R64). The set is the spec's decision D5 (log 9). -/
def Obligations.OpcodeTableIsAFunction : Prop :=
  ∀ c : Config,
    (opcodeTable c).length = 34 ∧
    (opcodeTable c).Pairwise (fun d e => d.opcode ≠ e.opcode) ∧
    (∀ d ∈ opcodeTable c, d.wf = true) ∧
    ∀ b d, lookupOpcode c b = some d ↔ d ∈ opcodeTable c ∧ d.opcode = b

/-- The decoder agrees with the table: an opcode byte decodes exactly when it has a row, and the instruction decoded is the row's,
with its mnemonic, mode and length (R64, R71, R82). -/
def Obligations.DecoderAgreesWithTable : Prop :=
  ∀ (c : Config) (b b1 b2 : Byte),
    (∀ i, decodeFetched b b1 b2 = .ok i →
      lookupOpcode c b = some (i.descriptor c) ∧ (i.descriptor c).bytes = i.length) ∧
    (∀ e, decodeFetched b b1 b2 = .error e → lookupOpcode c b = none)

/-! ### Memory (20_memory.md) -/

/-- A word write then a word read at the same address, at every address that does not fault: low byte at the address, high byte at
the next, no other cell changed, and the word reads back (R48, R49, R50, R51); where the address faults, both raise
MemoryAddressOutOfRange (R48, R49, log 7). -/
def Obligations.WordAccessIsLittleEndian : Prop :=
  ∀ (c : Config) (m : Memory) (a v : Addr),
    (a = 0xFFFF ∧ c.wordAtTop = .fault →
      m.readWord c a = .error .memoryAddressOutOfRange ∧ m.writeWord c a v = .error .memoryAddressOutOfRange) ∧
    (¬ (a = 0xFFFF ∧ c.wordAtTop = .fault) →
      ∃ m', m.writeWord c a v = .ok m' ∧ m'.readWord c a = .ok v ∧
        (m'.read a).toNat = v.toNat % 256 ∧ (m'.read (a + 1)).toNat = v.toNat / 256 ∧
        ∀ b, b ≠ a → b ≠ a + 1 → m'.read b = m.read b)

/-- A byte written at either cell of a word is the matching byte of the word read there (R51). -/
def Obligations.WordReadSeesByteWrites : Prop :=
  ∀ (c : Config) (m : Memory) (a : Addr) (lo hi : Byte), ¬ (a = 0xFFFF ∧ c.wordAtTop = .fault) →
    ∃ w, ((m.write a lo).write (a + 1) hi).readWord c a = .ok w ∧
      ((m.write (a + 1) hi).write a lo).readWord c a = .ok w ∧ w.toNat = hi.toNat * 256 + lo.toNat

/-! ### The execution loop (40_execution_loop.md) -/

/-- A step runs the decoded instruction: in a state that may step, if the three bytes at PC (addresses modulo 65536) start with an
instruction, the step is its execution in the state after fetch, with RS Ready and PC at the first operand byte (R80, R81, R83). -/
def Obligations.StepRunsTheDecodedInstr : Prop :=
  ∀ (s : State) (i : Instr) (rest : List Byte), s.safe →
    decode [s.load s.pc, s.load (s.pc + 1), s.load (s.pc + 2)] = .ok (i, rest) →
    step s = exec i { s with pc := s.pc + 1, rs := .ready }

/-- Any instruction stored at PC by its encoding, wherever PC is, is the one the next step runs (R60, R63, R80). -/
def Obligations.StoredEncodingIsRun : Prop :=
  ∀ (i : Instr) (s : State), s.safe →
    step { s with mem := s.mem.writeBytes s.pc (encode i) } =
      exec i { s with mem := s.mem.writeBytes s.pc (encode i), pc := s.pc + 1, rs := .ready }

/-- A word of the opcode table (R61's number I) placed by `withFetchWord` is run by the very next step as the instruction that
`decodeTableWord` reads from it, in every state, a faulted one too (log 14, log 24). -/
def Obligations.PlacedTableWordIsRun : Prop :=
  ∀ (s : State) (nbits w : Nat) (i : Instr), decodeTableWord nbits w = some i →
    step (s.withFetchWord nbits w) =
      exec i { s.withFetchWord nbits w with pc := s.pc + 1, rs := .ready }

/-- The step of the machine is the step of R80's pseudocode at the values the spec takes: table lookup by the fetched byte, handler
by mnemonic, operands read in memory by `Resolve(mode, PC)`. A faulted block performs no step and answers its error (R89, log 11). -/
def Obligations.StepRefinesTheLoop : Prop :=
  (∀ s : State, s.safe → step s = .next (loopStep Config.taken s)) ∧
  (∀ (s : State) (k : Fault), s.rs = .faulted k → step s = .fault k ∧ loopStep Config.taken s = s)

/-- Every state that may step has a next state: no step is refused and none but a faulted block's stops (R80, R89, log 1). -/
def Obligations.SafeStatesStep : Prop := ∀ s : State, s.safe → ∃ t, step s = .next t

/-- A fetched byte with no row: RS <- Faulted(UnknownOpcode(byte)), PC is the byte's address plus 1, and nothing else changes (R82,
R87, R140, R145, R146). That PC keeps the fetch's increment is the spec's decision D11 (log 18). -/
def Obligations.UnknownOpcodeIsTaken : Prop :=
  ∀ s : State, s.safe → lookupOpcode Config.taken (s.load s.pc) = none →
    step s = .next { s with pc := s.pc + 1, rs := .faulted (.unknownOpcode (s.load s.pc)) }

/-- A fault stays: no step, no change, the same error from `step` and from `run`, until `reset` makes the block Ready (R89, R147,
R164). The spec's decision D10 (log 11). -/
def Obligations.FaultStaysUntilReset : Prop :=
  ∀ (c : Config) (s : State) (k : Fault) (n : Nat), c.wf = true → s.rs = .faulted k →
    step s = .fault k ∧ stepOp c s = (s, .err k) ∧ runOp c (n + 1) s = some (s, .err k) ∧
    ∃ t, resetBlock c s = .ok t ∧ t.rs = .ready

/-- A halted block steps as a ready one with the same registers and memory does: it resumes at PC (R89, R155). The spec's decision
D10 (log 11). -/
def Obligations.HaltResumesAtPc : Prop :=
  ∀ s : State, s.rs = .halted → step s = step { s with rs := .ready }

/-- PC after a step: the opcode's address plus the length of its row where no fault is raised (R85), and that address plus 1 where one
is, with A, X, Y, P and every byte of memory as before the step (R87, R146). What a fault leaves is the spec's decision D11 (log 18). -/
def Obligations.PcAfterAStep : Prop :=
  ∀ s t : State, step s = .next t →
    (t.safe → ∃ d, lookupOpcode Config.taken (s.load s.pc) = some d ∧ t.pc.toNat = (s.pc.toNat + d.bytes) % 65536) ∧
    (¬ t.safe → t.pc = s.pc + 1 ∧ t.a = s.a ∧ t.x = s.x ∧ t.y = s.y ∧ t.p = s.p ∧ sameMemory s t)

/-- `run` is `step` repeated until RS is not Ready (R90, R91): a run that ends under `n` fuel ends in the state of the first step that
leaves RS Halted or Faulted, with that state's result; one that does not end has taken `n` steps that all left RS Ready (R92). The fuel
is the spec's decision D26 (log 25), the single step D20 (log 28). -/
def Obligations.RunIsStepRepeated : Prop :=
  ∀ (c : Config) (n : Nat) (s : State),
    (∀ t r, runOp c n s = some (t, r) → ∃ k, k < n ∧ t = (loopStep c)^[k + 1] s ∧ t.rs ≠ .ready ∧ r = t.rs.result ∧
      ∀ j, j < k → ((loopStep c)^[j + 1] s).rs = .ready) ∧
    (runOp c n s = none → ∀ j, j < n → ((loopStep c)^[j + 1] s).rs = .ready)

/-! ### Invariants and whole-machine rules (10_state.md, 60_exceptions.md) -/

/-- The invariant holds at reset, and the state at reset is what `reset` leaves of a constructed block: every register 0, PC the word
in the never-written vector cells, RS Ready, no cell other than 0 (R32, R160, R164, R166). -/
def Obligations.ResetStateHasInv : Prop :=
  State.reset.Inv ∧ resetBlock Config.taken State.construct = .ok State.reset ∧
    State.reset.a = 0 ∧ State.reset.x = 0 ∧ State.reset.y = 0 ∧ State.reset.p = 0 ∧ State.reset.pc = 0x0000 ∧
    State.reset.rs = .ready ∧ ∀ a, State.reset.load a = 0

/-- Every step keeps the invariant: memory stays canonical; a halt stands just after a BRK; a fault stands one byte after the opcode of
the instruction that raised it, which is the undecoded byte in the error or a form with a 16-bit operand at `0xFFFE`; and
InvalidAddressingMode is never raised (R86, R140, R141, R142, R146). PC after a fault is the spec's decision D11 (log 18). -/
def Obligations.StepKeepsInv : Prop := ∀ s t : State, s.Inv → step s = .next t → t.Inv

/-- Who writes what: no step changes Y; X changes only in TAX and INX, A only in ADC, AND and LDA, memory only in STA (R23, R41, R126). -/
def Obligations.RegistersChangeOnlyInTheirWriters : Prop :=
  ∀ s t : State, step s = .next t →
    t.y = s.y ∧
    (t.x ≠ s.x → ∃ d, lookupOpcode Config.taken (s.load s.pc) = some d ∧ (d.mnemonic = .tax ∨ d.mnemonic = .inx)) ∧
    (t.a ≠ s.a → ∃ d, lookupOpcode Config.taken (s.load s.pc) = some d ∧
      (d.mnemonic = .adc ∨ d.mnemonic = .and ∨ d.mnemonic = .lda)) ∧
    (∀ a, t.load a ≠ s.load a → ∃ d, lookupOpcode Config.taken (s.load s.pc) = some d ∧ d.mnemonic = .sta)

/-- Which flags a step may change: C and V only in ADC; Z and N in all but STA and BRK; bits 2 to 5 of P never (R24, R25, R26). -/
def Obligations.FlagsChangeOnlyInTheirWriters : Prop :=
  ∀ s t : State, step s = .next t →
    sameStorageBits s t ∧
    (¬ sameCV s t → ∃ d, lookupOpcode Config.taken (s.load s.pc) = some d ∧ d.mnemonic = .adc) ∧
    (t.p ≠ s.p → ∃ d, lookupOpcode Config.taken (s.load s.pc) = some d ∧ d.mnemonic ≠ .sta ∧ d.mnemonic ≠ .brk)

/-- Bits 2 to 5 of P have no effect: two states that differ in them only step to states that differ in them only (R25, R111). That they
are plain storage, and that P bit 3 does not make ADC decimal, are the spec's decisions D12 and D13 (log 16). -/
def Obligations.StorageBitsHaveNoEffect : Prop :=
  ∀ s s' t : State, sameButStorageBits s s' → step s = .next t →
    ∃ t', step s' = .next t' ∧ sameButStorageBits t t'

/-- The only reader of a flag is ADC, which reads C: two states that differ in P alone, and not in C where the opcode is an ADC, step to
states that agree in A, X, Y, PC, M and RS (R26). -/
def Obligations.OnlyAdcReadsAFlag : Prop :=
  ∀ (s t : State) (p : Byte), step s = .next t →
    (flagOf p .c = s.flag .c ∨
      ∀ d, lookupOpcode Config.taken (s.load s.pc) = some d → d.mnemonic ≠ .adc) →
    ∃ t', step { s with p := p } = .next t' ∧
      t'.a = t.a ∧ t'.x = t.x ∧ t'.y = t.y ∧ t'.pc = t.pc ∧ t'.mem = t.mem ∧ t'.rs = t.rs

/-- A step halts the block exactly when it fetches `0x00`, which is BRK (R27, R86, R130). That BRK only
halts is the spec's decision D18 (log 19). -/
def Obligations.OnlyBrkHalts : Prop :=
  ∀ s t : State, step s = .next t → (t.rs = .halted ↔ s.load s.pc = 0x00)

/-- No step depends on the cycle counts, whatever they are (R9, R173). -/
def Obligations.CyclesAreNeverRead : Prop :=
  ∀ (c : Config) (cycles : List CycleEntry) (s : State), loopStep { c with cycles := cycles } s = loopStep c s

/-! ### The resolver (41_addressing.md) -/

/-- ZeroPage, ZeroPageX and ZeroPageY: the operand byte, plus X or Y modulo 256, zero-extended, so never above `0x00FF`; no row of the
table has ZeroPageY (R99, R100, R101). -/
def Obligations.ZeroPageModesStayInPageZero : Prop :=
  ∀ (c : Config) (pc : Addr) (s : State),
    (∃ ea, resolve c .zeroPage pc s = .ok ea ∧ ea.toNat = (s.load pc).toNat ∧ ea.toNat ≤ 0x00FF) ∧
    (∃ ea, resolve c .zeroPageX pc s = .ok ea ∧ ea.toNat = ((s.load pc).toNat + s.x.toNat) % 256 ∧ ea.toNat ≤ 0x00FF) ∧
    (∃ ea, resolve c .zeroPageY pc s = .ok ea ∧ ea.toNat = ((s.load pc).toNat + s.y.toNat) % 256 ∧ ea.toNat ≤ 0x00FF) ∧
    ∀ d ∈ opcodeTable c, d.mode ≠ .zeroPageY

/-- The zero-page pointer read: low byte from the pointer's cell; high byte from the next cell of page 0 under `page0`, from the next
cell of memory under `linear`; the two differ only for a pointer at `0xFF` (R97, log 6). -/
def Obligations.ZeroPagePointerRead : Prop :=
  ∀ (c : Config) (m : Memory) (p : Byte),
    (c.zpPtrWrap = .page0 →
      (zpPtr c m p).toNat =
        (m.read (BitVec.ofNat 16 ((p.toNat + 1) % 256))).toNat * 256 + (m.read (BitVec.ofNat 16 p.toNat)).toNat) ∧
    (c.zpPtrWrap = .linear →
      (zpPtr c m p).toNat =
        (m.read (BitVec.ofNat 16 (p.toNat + 1))).toNat * 256 + (m.read (BitVec.ofNat 16 p.toNat)).toNat) ∧
    (p ≠ 0xFF → zpPtr { c with zpPtrWrap := .page0 } m p = zpPtr { c with zpPtrWrap := .linear } m p)

/-- IndirectX adds X to the operand modulo 256 and then reads the pointer; IndirectY reads the pointer at the operand and then adds Y
modulo 65536. Neither faults (R105, R106). -/
def Obligations.IndirectModes : Prop :=
  ∀ (c : Config) (pc : Addr) (s : State),
    resolve c .indirectX pc s = .ok (zpPtr c s.mem (BitVec.ofNat 8 (((s.load pc).toNat + s.x.toNat) % 256))) ∧
    ∃ ea, resolve c .indirectY pc s = .ok ea ∧
      ea.toNat = ((zpPtr c s.mem (s.load pc)).toNat + s.y.toNat) % 65536

/-- Absolute, AbsoluteX and AbsoluteY: the little-endian word at pc, plus X or Y, modulo 65536; with pc at `0xFFFF` the word read faults
or wraps as the parameter says (R102, R103, R104, log 7). -/
def Obligations.AbsoluteModes : Prop :=
  ∀ (c : Config) (pc : Addr) (s : State) (base : Nat),
    base = (s.load (pc + 1)).toNat * 256 + (s.load pc).toNat →
    (¬ (pc = 0xFFFF ∧ c.wordAtTop = .fault) →
      (∃ ea, resolve c .absolute pc s = .ok ea ∧ ea.toNat = base) ∧
      (∃ ea, resolve c .absoluteX pc s = .ok ea ∧ ea.toNat = (base + s.x.toNat) % 65536) ∧
      (∃ ea, resolve c .absoluteY pc s = .ok ea ∧ ea.toNat = (base + s.y.toNat) % 65536)) ∧
    (pc = 0xFFFF ∧ c.wordAtTop = .fault →
      resolve c .absolute pc s = .error .memoryAddressOutOfRange ∧
      resolve c .absoluteX pc s = .error .memoryAddressOutOfRange ∧
      resolve c .absoluteY pc s = .error .memoryAddressOutOfRange)

/-- The resolver's only faults: InvalidAddressingMode for Implied, and MemoryAddressOutOfRange for a word operand at `0xFFFF` under
`WORD_AT_TOP = fault` (R96, R102, R108). -/
def Obligations.ResolverFaults : Prop :=
  ∀ (c : Config) (m : Mode) (pc : Addr) (s : State) (k : Fault),
    resolve c m pc s = .error k ↔
      (m = .implied ∧ k = .invalidAddressingMode) ∨
      (m.bytes = 3 ∧ pc = 0xFFFF ∧ c.wordAtTop = .fault ∧ k = .memoryAddressOutOfRange)

/-- No step ever raises InvalidAddressingMode: no row gives an addressed mnemonic the Implied mode, and resolving Implied is the only way
to raise it (R66, R96, R141). -/
def Obligations.InvalidAddressingModeIsUnreachable : Prop :=
  (∀ (c : Config) (pc : Addr) (s : State), resolve c .implied pc s = .error .invalidAddressingMode) ∧
  (∀ (c : Config) (d : Descriptor), d ∈ opcodeTable c → d.mnemonic.addressed = true → d.mode ≠ .implied) ∧
  (∀ (c : Config) (s : State), s.safe → (loopStep c s).rs ≠ .faulted .invalidAddressingMode)

/-! ### Instructions (42_alu.md, 43_load_store.md, 44_register.md, 45_control.md)

`s` is the state at dispatch, with PC at the first operand byte. Each statement gives the whole next state, so it is the
instruction's completion, result and frame in one. -/

/-- `UpdateZN(v)`: Z is set exactly when v is 0, N exactly when bit 7 of v is set, whatever they were; every other bit of P is as before
(R110). -/
def Obligations.UpdateZnWritesTwoBits : Prop :=
  ∀ v p : Byte,
    (flagOf (updateZN v p) .z = true ↔ v.toNat = 0) ∧ (flagOf (updateZN v p) .n = true ↔ v.toNat ≥ 128) ∧
    ∀ i, i ≠ 1 → i ≠ 7 → (updateZN v p).getLsbD i = p.getLsbD i

/-- ADC, all eight forms (R112, R113): encodings; A, C, V, Z and N from the byte at the effective address (the immediate byte itself) and
the carry-in, by the exact unsigned and signed sums; nothing else changes but PC; and the fault of the absolute forms under
`WORD_AT_TOP = fault` (log 7). The opcode values are the spec's from the 6502 reference table (log 8). -/
def Obligations.AdcAddsWithCarry : Prop :=
  (∀ (b : Byte) (s : State),
    runsTo (.adcImm b) s (adcEffect b 1 s) ∧
    runsTo (.adcZp b) s (adcEffect (s.load (eaZeroPage b)) 1 s) ∧
    runsTo (.adcZpX b) s (adcEffect (s.load (eaZeroPageX b s)) 1 s) ∧
    runsTo (.adcIndX b) s (adcEffect (s.load (eaIndirectX Config.taken b s)) 1 s) ∧
    runsTo (.adcIndY b) s (adcEffect (s.load (eaIndirectY Config.taken b s)) 1 s)) ∧
  (∀ (ad : Addr) (s : State), s.pc ≠ 0xFFFF →
    runsTo (.adcAbs ad) s (adcEffect (s.load ad) 2 s) ∧
    runsTo (.adcAbsX ad) s (adcEffect (s.load (ad + zext16 s.x)) 2 s) ∧
    runsTo (.adcAbsY ad) s (adcEffect (s.load (ad + zext16 s.y)) 2 s)) ∧
  (∀ (ad : Addr) (s : State), Config.taken.wordAtTop = .fault → s.pc = 0xFFFF →
    takesFault (.adcAbs ad) s .memoryAddressOutOfRange ∧ takesFault (.adcAbsX ad) s .memoryAddressOutOfRange ∧
    takesFault (.adcAbsY ad) s .memoryAddressOutOfRange) ∧
  (∀ b : Byte, encode (.adcImm b) = [0x69, b] ∧ encode (.adcZp b) = [0x65, b] ∧ encode (.adcZpX b) = [0x75, b] ∧
    encode (.adcIndX b) = [0x61, b] ∧ encode (.adcIndY b) = [0x71, b]) ∧
  (∀ lo hi : Byte, encode (.adcAbs (wordOf hi lo)) = [0x6D, lo, hi] ∧ encode (.adcAbsX (wordOf hi lo)) = [0x7D, lo, hi] ∧
    encode (.adcAbsY (wordOf hi lo)) = [0x79, lo, hi])

/-- AND, all eight forms (R114): encodings; A is A and the byte at the effective address, bit by bit; Z and N from it; C, V and everything
else but PC unchanged; and the fault of the absolute forms (log 7). The opcode values are log 8's. -/
def Obligations.AndMasksTheAccumulator : Prop :=
  (∀ (b : Byte) (s : State),
    runsTo (.andImm b) s (writesA (s.a &&& b) 1 s) ∧
    runsTo (.andZp b) s (writesA (s.a &&& s.load (eaZeroPage b)) 1 s) ∧
    runsTo (.andZpX b) s (writesA (s.a &&& s.load (eaZeroPageX b s)) 1 s) ∧
    runsTo (.andIndX b) s (writesA (s.a &&& s.load (eaIndirectX Config.taken b s)) 1 s) ∧
    runsTo (.andIndY b) s (writesA (s.a &&& s.load (eaIndirectY Config.taken b s)) 1 s)) ∧
  (∀ (ad : Addr) (s : State), s.pc ≠ 0xFFFF →
    runsTo (.andAbs ad) s (writesA (s.a &&& s.load ad) 2 s) ∧
    runsTo (.andAbsX ad) s (writesA (s.a &&& s.load (ad + zext16 s.x)) 2 s) ∧
    runsTo (.andAbsY ad) s (writesA (s.a &&& s.load (ad + zext16 s.y)) 2 s)) ∧
  (∀ (ad : Addr) (s : State), Config.taken.wordAtTop = .fault → s.pc = 0xFFFF →
    takesFault (.andAbs ad) s .memoryAddressOutOfRange ∧ takesFault (.andAbsX ad) s .memoryAddressOutOfRange ∧
    takesFault (.andAbsY ad) s .memoryAddressOutOfRange) ∧
  (∀ b : Byte, encode (.andImm b) = [0x29, b] ∧ encode (.andZp b) = [0x25, b] ∧ encode (.andZpX b) = [0x35, b] ∧
    encode (.andIndX b) = [0x21, b] ∧ encode (.andIndY b) = [0x31, b]) ∧
  (∀ lo hi : Byte, encode (.andAbs (wordOf hi lo)) = [0x2D, lo, hi] ∧ encode (.andAbsX (wordOf hi lo)) = [0x3D, lo, hi] ∧
    encode (.andAbsY (wordOf hi lo)) = [0x39, lo, hi])

/-- LDA, all eight forms (R120): encodings; A is the byte at the effective address; Z and N from it; C, V and everything else but PC
unchanged; and the fault of the absolute forms (log 7). `0xB1` loads by the mode `LDA_B1_MODE` (R121, log 5). The opcode values
other than `0xA9` are log 8's. -/
def Obligations.LdaLoadsTheAccumulator : Prop :=
  (∀ (b : Byte) (s : State),
    runsTo (.ldaImm b) s (writesA b 1 s) ∧
    runsTo (.ldaZp b) s (writesA (s.load (eaZeroPage b)) 1 s) ∧
    runsTo (.ldaZpX b) s (writesA (s.load (eaZeroPageX b s)) 1 s) ∧
    runsTo (.ldaIndX b) s (writesA (s.load (eaIndirectX Config.taken b s)) 1 s) ∧
    runsTo (.ldaIndY b) s (writesA
      (s.load (match Config.taken.ldaB1Mode with
        | .indirectY => eaIndirectY Config.taken b s
        | .indirectX => eaIndirectX Config.taken b s)) 1 s)) ∧
  (∀ (ad : Addr) (s : State), s.pc ≠ 0xFFFF →
    runsTo (.ldaAbs ad) s (writesA (s.load ad) 2 s) ∧
    runsTo (.ldaAbsX ad) s (writesA (s.load (ad + zext16 s.x)) 2 s) ∧
    runsTo (.ldaAbsY ad) s (writesA (s.load (ad + zext16 s.y)) 2 s)) ∧
  (∀ (ad : Addr) (s : State), Config.taken.wordAtTop = .fault → s.pc = 0xFFFF →
    takesFault (.ldaAbs ad) s .memoryAddressOutOfRange ∧ takesFault (.ldaAbsX ad) s .memoryAddressOutOfRange ∧
    takesFault (.ldaAbsY ad) s .memoryAddressOutOfRange) ∧
  (∀ b : Byte, encode (.ldaImm b) = [0xA9, b] ∧ encode (.ldaZp b) = [0xA5, b] ∧ encode (.ldaZpX b) = [0xB5, b] ∧
    encode (.ldaIndX b) = [0xA1, b] ∧ encode (.ldaIndY b) = [0xB1, b]) ∧
  (∀ lo hi : Byte, encode (.ldaAbs (wordOf hi lo)) = [0xAD, lo, hi] ∧ encode (.ldaAbsX (wordOf hi lo)) = [0xBD, lo, hi] ∧
    encode (.ldaAbsY (wordOf hi lo)) = [0xB9, lo, hi])

/-- Opcode `0xB1` under both settings of `LDA_B1_MODE`, for any other parameters: the address by the rule of IndirectY or of IndirectX, two
bytes, and the effect of LDA (R70, R121). At the value taken it is IndirectY, the spec's decision D4 (log 5). -/
def Obligations.OpcodeB1UnderBothSettings : Prop :=
  ∀ (c : Config) (s : State),
    (c.ldaB1Mode = .indirectY → ∃ ea t, resolve c .indirectY s.pc s = .ok ea ∧ dispatchByte c 0xB1 s = t ∧
      writesA (s.load ea) 1 s t) ∧
    (c.ldaB1Mode = .indirectX → ∃ ea t, resolve c .indirectX s.pc s = .ok ea ∧ dispatchByte c 0xB1 s = t ∧
      writesA (s.load ea) 1 s t) ∧
    ∀ b : Byte, runsTo (.ldaIndY b) s (writesA (s.load (eaIndirectY Config.taken b s)) 1 s)

/-- STA, all seven forms (R122): encodings; the byte at the effective address becomes A; every other byte of memory, A, X, Y, all of P and RS
are unchanged; and the fault of the absolute forms, which stores nothing (log 7). The opcode values are log 8's. -/
def Obligations.StaStoresTheAccumulator : Prop :=
  (∀ (b : Byte) (s : State),
    runsTo (.staZp b) s (storesA (eaZeroPage b) 1 s) ∧
    runsTo (.staZpX b) s (storesA (eaZeroPageX b s) 1 s) ∧
    runsTo (.staIndX b) s (storesA (eaIndirectX Config.taken b s) 1 s) ∧
    runsTo (.staIndY b) s (storesA (eaIndirectY Config.taken b s) 1 s)) ∧
  (∀ (ad ea : Addr) (s : State), s.pc ≠ 0xFFFF →
    (eaAbsolute Config.taken ad s = .ok ea → ea = ad ∧ runsTo (.staAbs ad) s (storesA ea 2 s)) ∧
    (eaAbsoluteX Config.taken ad s = .ok ea → ea = ad + zext16 s.x ∧ runsTo (.staAbsX ad) s (storesA ea 2 s)) ∧
    (eaAbsoluteY Config.taken ad s = .ok ea → ea = ad + zext16 s.y ∧ runsTo (.staAbsY ad) s (storesA ea 2 s))) ∧
  (∀ (ad : Addr) (s : State), s.pc ≠ 0xFFFF →
    (∃ ea, eaAbsolute Config.taken ad s = .ok ea) ∧ (∃ ea, eaAbsoluteX Config.taken ad s = .ok ea) ∧
    (∃ ea, eaAbsoluteY Config.taken ad s = .ok ea)) ∧
  (∀ (ad : Addr) (s : State), Config.taken.wordAtTop = .fault → s.pc = 0xFFFF →
    takesFault (.staAbs ad) s .memoryAddressOutOfRange ∧ takesFault (.staAbsX ad) s .memoryAddressOutOfRange ∧
    takesFault (.staAbsY ad) s .memoryAddressOutOfRange) ∧
  (∀ b : Byte, encode (.staZp b) = [0x85, b] ∧ encode (.staZpX b) = [0x95, b] ∧ encode (.staIndX b) = [0x81, b] ∧
    encode (.staIndY b) = [0x91, b]) ∧
  (∀ lo hi : Byte, encode (.staAbs (wordOf hi lo)) = [0x8D, lo, hi] ∧ encode (.staAbsX (wordOf hi lo)) = [0x9D, lo, hi] ∧
    encode (.staAbsY (wordOf hi lo)) = [0x99, lo, hi])

/-- A store into the instruction just after the STA is seen when it is fetched (R58, R123, R171): the next step runs what the stored byte
decodes to, or takes UnknownOpcode with it. Fetch coherence is the spec's decision D16 (log 27). -/
def Obligations.StoreIsSeenByTheNextFetch : Prop :=
  ∀ (s : State) (ea : Addr), s.safe → s.pc ≠ 0xFFFE →
    decode [s.load s.pc, s.load (s.pc + 1), s.load (s.pc + 2)] = .ok (.staAbs ea, []) → ea = s.pc + 3 →
    ∃ t, step s = .next t ∧ t.pc = ea ∧
      (∀ i, decodeFetched s.a (s.load (ea + 1)) (s.load (ea + 2)) = .ok i → step t = exec i { t with pc := ea + 1 }) ∧
      (lookupOpcode Config.taken s.a = none →
        step t = .next { t with pc := ea + 1, rs := .faulted (.unknownOpcode s.a) })

/-- TAX (R125): encoding `AA`; X becomes A, Z and N from it; nothing else changes. -/
def Obligations.TaxCopiesAToX : Prop :=
  encode .tax = [0xAA] ∧ ∀ s : State, runsTo .tax s (writesX s.a s)

/-- INX (R127): encoding `E8`; X becomes X + 1 modulo 256, Z and N from it; C, V and everything else are unchanged; 256 of them return X to
where it was. -/
def Obligations.InxIncrementsX : Prop :=
  encode .inx = [0xE8] ∧
  (∀ s : State, runsTo .inx s (writesX (BitVec.ofNat 8 ((s.x.toNat + 1) % 256)) s)) ∧
  ∀ s : State, ∃ t, repeatExec .inx 256 s = some t ∧ t.x = s.x ∧ t.a = s.a ∧ t.y = s.y ∧ sameCV s t ∧ znFrom s.x t

/-- BRK (R86, R130, R131): RS becomes Halted; no register, flag or byte of memory changes, and PC stays just after the BRK. The spec's decision
D18 (log 19). -/
def Obligations.BrkOnlyHalts : Prop :=
  encode .brk = [0x00] ∧ ∀ s : State, exec .brk s = .next { s with rs := .halted }

/-! ### Load, reset and the host (60_exceptions.md, 70_reset_and_hazards.md) -/

/-- `load`: an image that fits is copied to LOAD_BASE, then the vector is written, little-endian, over whatever lies there; every other cell,
every register and RS are unchanged (R162); one that does not fit is refused (R163). The spec's decision D17 (log 20). -/
def Obligations.LoadCopiesImageThenVector : Prop :=
  ∀ (c : Config) (bytes : List Byte) (s : State), c.wf = true →
    (c.loadBase.toNat + bytes.length > 65536 → loadImage c bytes s = .error .memoryAddressOutOfRange) ∧
    (c.loadBase.toNat + bytes.length ≤ 65536 →
      ∃ t, loadImage c bytes s = .ok t ∧
        (t.load c.resetVector).toNat = c.loadBase.toNat % 256 ∧
        (t.load (c.resetVector + 1)).toNat = c.loadBase.toNat / 256 ∧
        (∀ a : Addr, a ≠ c.resetVector → a ≠ c.resetVector + 1 →
          t.load a = (if c.loadBase.toNat ≤ a.toNat then bytes[a.toNat - c.loadBase.toNat]? else none).getD (s.load a)) ∧
        t.a = s.a ∧ t.x = s.x ∧ t.y = s.y ∧ t.p = s.p ∧ t.pc = s.pc ∧ t.rs = s.rs)

/-- `reset`: A, X and all of P are 0; Y is 0 where RESET_CLEARS_Y and unchanged otherwise; PC is the little-endian word at the vector; RS is
Ready; memory is unchanged (R164, R165). Y, memory and RS rest on the spec's decisions D3, D27 and D10 (log 4, 21, 11). -/
def Obligations.ResetClearsAndLoadsPc : Prop :=
  ∀ (c : Config) (s : State), c.wf = true →
    ∃ t, resetBlock c s = .ok t ∧ t.a = 0 ∧ t.x = 0 ∧ t.p = 0 ∧ t.y = (if c.resetClearsY then 0 else s.y) ∧
      t.pc.toNat = (s.load (c.resetVector + 1)).toNat * 256 + (s.load c.resetVector).toNat ∧
      t.rs = .ready ∧ t.mem = s.mem

/-- After `load(program)` then `reset()`, PC is the base address the load wrote into the vector, for every image that fits (R166). -/
def Obligations.LoadThenResetStartsAtBase : Prop :=
  ∀ (c : Config) (bytes : List Byte) (s : State), c.wf = true → c.loadBase.toNat + bytes.length ≤ 65536 →
    ∃ t u, loadImage c bytes s = .ok t ∧ resetBlock c t = .ok u ∧ u.pc = c.loadBase ∧ u.rs = .ready

/-- `load_and_run` is load, reset, run (R167): for an image that fits it is the run from the reset state of the loaded block; a refused image
changes nothing and is neither reset nor run. The refusal is the spec's decision D17 (log 20). -/
def Obligations.LoadAndRunIsLoadResetRun : Prop :=
  ∀ (c : Config) (n : Nat) (bytes : List Byte) (s : State), c.wf = true →
    (c.loadBase.toNat + bytes.length > 65536 → loadAndRun c n bytes s = some (s, .err .memoryAddressOutOfRange)) ∧
    (c.loadBase.toNat + bytes.length ≤ 65536 →
      ∃ t u, loadImage c bytes s = .ok t ∧ resetBlock c t = .ok u ∧ loadAndRun c n bytes s = runOp c n u)

/-- The host's write accessors (R33, R153): each register, all eight bits of P among them, and each memory cell reads back what was written;
no other register, no other cell and never RS is changed. What the host may write is the spec's decision D23 (log 26). -/
def Obligations.HostWritesReadBack : Prop :=
  ∀ (s : State) (v : Byte) (pc a b : Addr),
    s.setA v = { s with a := v } ∧ s.setX v = { s with x := v } ∧ s.setY v = { s with y := v } ∧
    s.setP v = { s with p := v } ∧ s.setPc pc = { s with pc := pc } ∧
    (s.store a v).load b = (if b = a then v else s.load b) ∧
    (∃ m, s.store a v = { s with mem := m })
end

