-- ==== Sys2Proof/Laws/Decode.lean ====
section
/-! SUPPORT. The byte-order helpers undo each other; what the decoder and the table lookup can answer, said once. -/

namespace Sys2Proof

theorem wordOf_high_low (v : Addr) : wordOf (highByte v) (lowByte v) = v := by
  apply BitVec.eq_of_toNat_eq
  have := v.isLt
  simp only [wordOf, highByte, lowByte, BitVec.toNat_ofNat]
  omega

theorem lowByte_wordOf (hi lo : Byte) : lowByte (wordOf hi lo) = lo := by
  apply BitVec.eq_of_toNat_eq
  have := hi.isLt
  have := lo.isLt
  simp only [wordOf, lowByte, BitVec.toNat_ofNat]
  omega

theorem highByte_wordOf (hi lo : Byte) : highByte (wordOf hi lo) = hi := by
  apply BitVec.eq_of_toNat_eq
  have := hi.isLt
  have := lo.isLt
  simp only [wordOf, highByte, BitVec.toNat_ofNat]
  omega

/-- An opcode byte with a shape is in the decoder's rows. -/
theorem shapeOf_mem {b : Byte} {sh : Shape} (h : shapeOf b = some sh) : (b, sh) ∈ shapeRows := by
  unfold shapeOf at h
  rw [List.lookup_eq_some_iff] at h
  obtain ⟨l1, l2, h, _⟩ := h
  rw [h]; simp

/-- The decoder of three fetched bytes reads what the decoder of a list reads in them (R69, R71). -/
theorem decodeFetched_list {b0 b1 b2 : Byte} {i : Instr} (h : decodeFetched b0 b1 b2 = .ok i) : ∃ rest, decode [b0, b1, b2] = .ok (i, rest) := by
  unfold decodeFetched at h
  unfold decode
  cases hs : shapeOf b0 with
  | none => simp [hs] at h
  | some sh => cases sh <;> simp [hs] at h <;> subst h <;> simp [hs]

theorem decode_fetched {b0 b1 b2 : Byte} {i : Instr} {rest : List Byte} (h : decode [b0, b1, b2] = .ok (i, rest)) : decodeFetched b0 b1 b2 = .ok i := by
  unfold decode at h
  unfold decodeFetched
  cases hs : shapeOf b0 with
  | none => simp [hs] at h
  | some sh => cases sh <;> simp [hs] at h <;> simp [h.1]

/-- The row of an instruction's opcode is its descriptor. -/
theorem lookupOpcode_opcode (c : Config) (i : Instr) : lookupOpcode c i.opcode = some (i.descriptor c) := by
  cases i <;> rfl

/-- The decoder refuses only a byte without a shape. -/
theorem shapeOf_of_error {b b1 b2 : Byte} {e : DecodeError} (h : decodeFetched b b1 b2 = .error e) : shapeOf b = none := by
  unfold decodeFetched at h
  split at h <;> first | assumption | cases h

end Sys2Proof
end

