-- ==== Sys2Proof/Laws/State.lean ====
section
/-! SUPPORT. One lemma per field per update of State, true by `rfl`, so that no proof unfolds a record update; then the same for
the operations made of them. -/

namespace Sys2Proof.Machine

/-! `setA` -/

@[simp] theorem State.setA_a (s : State) (v : Byte) : (s.setA v).a = v := rfl
@[simp] theorem State.setA_x (s : State) (v : Byte) : (s.setA v).x = s.x := rfl
@[simp] theorem State.setA_y (s : State) (v : Byte) : (s.setA v).y = s.y := rfl
@[simp] theorem State.setA_p (s : State) (v : Byte) : (s.setA v).p = s.p := rfl
@[simp] theorem State.setA_pc (s : State) (v : Byte) : (s.setA v).pc = s.pc := rfl
@[simp] theorem State.setA_mem (s : State) (v : Byte) : (s.setA v).mem = s.mem := rfl
@[simp] theorem State.setA_rs (s : State) (v : Byte) : (s.setA v).rs = s.rs := rfl

/-! `setX` -/

@[simp] theorem State.setX_a (s : State) (v : Byte) : (s.setX v).a = s.a := rfl
@[simp] theorem State.setX_x (s : State) (v : Byte) : (s.setX v).x = v := rfl
@[simp] theorem State.setX_y (s : State) (v : Byte) : (s.setX v).y = s.y := rfl
@[simp] theorem State.setX_p (s : State) (v : Byte) : (s.setX v).p = s.p := rfl
@[simp] theorem State.setX_pc (s : State) (v : Byte) : (s.setX v).pc = s.pc := rfl
@[simp] theorem State.setX_mem (s : State) (v : Byte) : (s.setX v).mem = s.mem := rfl
@[simp] theorem State.setX_rs (s : State) (v : Byte) : (s.setX v).rs = s.rs := rfl

/-! `setY` -/

@[simp] theorem State.setY_a (s : State) (v : Byte) : (s.setY v).a = s.a := rfl
@[simp] theorem State.setY_x (s : State) (v : Byte) : (s.setY v).x = s.x := rfl
@[simp] theorem State.setY_y (s : State) (v : Byte) : (s.setY v).y = v := rfl
@[simp] theorem State.setY_p (s : State) (v : Byte) : (s.setY v).p = s.p := rfl
@[simp] theorem State.setY_pc (s : State) (v : Byte) : (s.setY v).pc = s.pc := rfl
@[simp] theorem State.setY_mem (s : State) (v : Byte) : (s.setY v).mem = s.mem := rfl
@[simp] theorem State.setY_rs (s : State) (v : Byte) : (s.setY v).rs = s.rs := rfl

/-! `setP` -/

@[simp] theorem State.setP_a (s : State) (v : Byte) : (s.setP v).a = s.a := rfl
@[simp] theorem State.setP_x (s : State) (v : Byte) : (s.setP v).x = s.x := rfl
@[simp] theorem State.setP_y (s : State) (v : Byte) : (s.setP v).y = s.y := rfl
@[simp] theorem State.setP_p (s : State) (v : Byte) : (s.setP v).p = v := rfl
@[simp] theorem State.setP_pc (s : State) (v : Byte) : (s.setP v).pc = s.pc := rfl
@[simp] theorem State.setP_mem (s : State) (v : Byte) : (s.setP v).mem = s.mem := rfl
@[simp] theorem State.setP_rs (s : State) (v : Byte) : (s.setP v).rs = s.rs := rfl

/-! `setPc` -/

@[simp] theorem State.setPc_a (s : State) (v : Addr) : (s.setPc v).a = s.a := rfl
@[simp] theorem State.setPc_x (s : State) (v : Addr) : (s.setPc v).x = s.x := rfl
@[simp] theorem State.setPc_y (s : State) (v : Addr) : (s.setPc v).y = s.y := rfl
@[simp] theorem State.setPc_p (s : State) (v : Addr) : (s.setPc v).p = s.p := rfl
@[simp] theorem State.setPc_pc (s : State) (v : Addr) : (s.setPc v).pc = v := rfl
@[simp] theorem State.setPc_mem (s : State) (v : Addr) : (s.setPc v).mem = s.mem := rfl
@[simp] theorem State.setPc_rs (s : State) (v : Addr) : (s.setPc v).rs = s.rs := rfl

/-! `setMem` -/

@[simp] theorem State.setMem_a (s : State) (v : Memory) : (s.setMem v).a = s.a := rfl
@[simp] theorem State.setMem_x (s : State) (v : Memory) : (s.setMem v).x = s.x := rfl
@[simp] theorem State.setMem_y (s : State) (v : Memory) : (s.setMem v).y = s.y := rfl
@[simp] theorem State.setMem_p (s : State) (v : Memory) : (s.setMem v).p = s.p := rfl
@[simp] theorem State.setMem_pc (s : State) (v : Memory) : (s.setMem v).pc = s.pc := rfl
@[simp] theorem State.setMem_mem (s : State) (v : Memory) : (s.setMem v).mem = v := rfl
@[simp] theorem State.setMem_rs (s : State) (v : Memory) : (s.setMem v).rs = s.rs := rfl

/-! `setRs` -/

@[simp] theorem State.setRs_a (s : State) (v : RunState) : (s.setRs v).a = s.a := rfl
@[simp] theorem State.setRs_x (s : State) (v : RunState) : (s.setRs v).x = s.x := rfl
@[simp] theorem State.setRs_y (s : State) (v : RunState) : (s.setRs v).y = s.y := rfl
@[simp] theorem State.setRs_p (s : State) (v : RunState) : (s.setRs v).p = s.p := rfl
@[simp] theorem State.setRs_pc (s : State) (v : RunState) : (s.setRs v).pc = s.pc := rfl
@[simp] theorem State.setRs_mem (s : State) (v : RunState) : (s.setRs v).mem = s.mem := rfl
@[simp] theorem State.setRs_rs (s : State) (v : RunState) : (s.setRs v).rs = v := rfl

/-! `fetched` -/

@[simp] theorem State.fetched_a (s : State) : (s.fetched).a = s.a := rfl
@[simp] theorem State.fetched_x (s : State) : (s.fetched).x = s.x := rfl
@[simp] theorem State.fetched_y (s : State) : (s.fetched).y = s.y := rfl
@[simp] theorem State.fetched_p (s : State) : (s.fetched).p = s.p := rfl
@[simp] theorem State.fetched_pc (s : State) : (s.fetched).pc = s.pc + 1 := rfl
@[simp] theorem State.fetched_mem (s : State) : (s.fetched).mem = s.mem := rfl
@[simp] theorem State.fetched_rs (s : State) : (s.fetched).rs = .ready := rfl

/-! `advance` -/

@[simp] theorem State.advance_a (s : State) (n : Nat) : (s.advance n).a = s.a := rfl
@[simp] theorem State.advance_x (s : State) (n : Nat) : (s.advance n).x = s.x := rfl
@[simp] theorem State.advance_y (s : State) (n : Nat) : (s.advance n).y = s.y := rfl
@[simp] theorem State.advance_p (s : State) (n : Nat) : (s.advance n).p = s.p := rfl
@[simp] theorem State.advance_pc (s : State) (n : Nat) : (s.advance n).pc = s.pc + BitVec.ofNat 16 (n - 1) := rfl
@[simp] theorem State.advance_mem (s : State) (n : Nat) : (s.advance n).mem = s.mem := rfl
@[simp] theorem State.advance_rs (s : State) (n : Nat) : (s.advance n).rs = s.rs := rfl

/-! `raise` -/

@[simp] theorem State.raise_a (s : State) (k : Fault) : (s.raise k).a = s.a := rfl
@[simp] theorem State.raise_x (s : State) (k : Fault) : (s.raise k).x = s.x := rfl
@[simp] theorem State.raise_y (s : State) (k : Fault) : (s.raise k).y = s.y := rfl
@[simp] theorem State.raise_p (s : State) (k : Fault) : (s.raise k).p = s.p := rfl
@[simp] theorem State.raise_pc (s : State) (k : Fault) : (s.raise k).pc = s.pc := rfl
@[simp] theorem State.raise_mem (s : State) (k : Fault) : (s.raise k).mem = s.mem := rfl
@[simp] theorem State.raise_rs (s : State) (k : Fault) : (s.raise k).rs = .faulted k := rfl

/-! `store` -/

@[simp] theorem State.store_a (s : State) (a : Addr) (v : Byte) : (s.store a v).a = s.a := rfl
@[simp] theorem State.store_x (s : State) (a : Addr) (v : Byte) : (s.store a v).x = s.x := rfl
@[simp] theorem State.store_y (s : State) (a : Addr) (v : Byte) : (s.store a v).y = s.y := rfl
@[simp] theorem State.store_p (s : State) (a : Addr) (v : Byte) : (s.store a v).p = s.p := rfl
@[simp] theorem State.store_pc (s : State) (a : Addr) (v : Byte) : (s.store a v).pc = s.pc := rfl
@[simp] theorem State.store_mem (s : State) (a : Addr) (v : Byte) : (s.store a v).mem = s.mem.write a v := rfl
@[simp] theorem State.store_rs (s : State) (a : Addr) (v : Byte) : (s.store a v).rs = s.rs := rfl

/-! `load` and `flag` look at one field each -/

@[simp] theorem State.load_of_mem (s t : State) (h : t.mem = s.mem) (a : Addr) : t.load a = s.load a := by
  simp [State.load, h]

@[simp] theorem State.flag_of_p (s t : State) (h : t.p = s.p) (f : Flag) : t.flag f = s.flag f := by
  simp [State.flag, h]

/-- A state is its seven fields. -/
theorem State.ext_fields {s t : State} (ha : s.a = t.a) (hx : s.x = t.x) (hy : s.y = t.y) (hp : s.p = t.p)
    (hpc : s.pc = t.pc) (hm : s.mem = t.mem) (hrs : s.rs = t.rs) : s = t := by
  cases s; cases t; simp_all

end Sys2Proof.Machine
end

