-- ==== Sys2Proof/Laws/Exec.lean ====
section
/-! SUPPORT. What the operations that end a step can do, said once; later proofs cite these and never unfold them. -/

namespace Sys2Proof.Machine

/-- `withAddress` answers one of two next states: the fault taken, or the handler run and the step advanced. -/
theorem withAddress_cases {n : Nat} {ea : Except Fault Addr} {s t : State} {f : Addr → State}
    (h : withAddress n ea s f = .next t) :
    (∃ k, ea = .error k ∧ t = s.raise k) ∨ (∃ a, ea = .ok a ∧ t = (f a).advance n) := by
  cases ea with
  | error k => exact .inl ⟨k, rfl, by simpa [withAddress] using h.symm⟩
  | ok a => exact .inr ⟨a, rfl, by simpa [withAddress, endStep] using h.symm⟩

/-- `withOperand` answers one of two next states: the fault taken, or the handler run on the byte at the address. -/
theorem withOperand_cases {n : Nat} {ea : Except Fault Addr} {s t : State} {f : Byte → State → State}
    (h : withOperand n ea s f = .next t) :
    (∃ k, ea = .error k ∧ t = s.raise k) ∨ (∃ a, ea = .ok a ∧ t = (f (s.load a) s).advance n) :=
  withAddress_cases h

theorem withAddress_ok (n : Nat) (a : Addr) (s : State) (f : Addr → State) :
    withAddress n (.ok a) s f = .next ((f a).advance n) := rfl

theorem withAddress_error (n : Nat) (k : Fault) (s : State) (f : Addr → State) :
    withAddress n (.error k) s f = .next (s.raise k) := rfl

theorem withOperand_ok (n : Nat) (a : Addr) (s : State) (f : Byte → State → State) :
    withOperand n (.ok a) s f = .next ((f (s.load a) s).advance n) := rfl

theorem withOperand_error (n : Nat) (k : Fault) (s : State) (f : Byte → State → State) :
    withOperand n (.error k) s f = .next (s.raise k) := rfl

/-- Every addressed handler answers a next state. -/
theorem withAddress_next (n : Nat) (ea : Except Fault Addr) (s : State) (f : Addr → State) :
    ∃ t, withAddress n ea s f = .next t := by
  cases ea with
  | error k => exact ⟨_, rfl⟩
  | ok a => exact ⟨_, rfl⟩

/-- What a step can be: the fault answered again, the fault UnknownOpcode taken, or a decoded instruction run. -/
theorem oneStep_cases (s : State) :
    (∃ k, s.rs = .faulted k ∧ oneStep s = .fault k) ∨
    ((∀ k, s.rs ≠ .faulted k) ∧ (∃ e, s.decodeHere = .error e) ∧
      oneStep s = .next (s.fetched.raise (.unknownOpcode (s.codeByte 0)))) ∨
    ((∀ k, s.rs ≠ .faulted k) ∧ ∃ i, s.decodeHere = .ok i ∧ oneStep s = exec i s.fetched) := by
  have run : (∀ k, s.rs ≠ .faulted k) → oneStep s = fetchDecodeExecute s := by
    intro h
    unfold oneStep
    cases hr : s.rs with
    | faulted k => exact absurd hr (h k)
    | ready => rfl
    | halted => rfl
  by_cases hk : ∃ k, s.rs = .faulted k
  · obtain ⟨k, hk⟩ := hk
    exact .inl ⟨k, hk, by unfold oneStep; rw [hk]⟩
  · have hk : ∀ k, s.rs ≠ .faulted k := fun k e => hk ⟨k, e⟩
    cases hd : s.decodeHere with
    | error e => exact .inr (.inl ⟨hk, ⟨e, rfl⟩, by rw [run hk, fetchDecodeExecute, hd]⟩)
    | ok i => exact .inr (.inr ⟨hk, i, rfl, by rw [run hk, fetchDecodeExecute, hd]⟩)

end Sys2Proof.Machine
end

