-- ==== Sys2Proof/Laws/Flags.lean ====
section
/-! SUPPORT. What writing a flag does to every bit of P, said once. -/

namespace Sys2Proof.Machine

theorem Flag.bit_lt (f : Flag) : f.bit < 8 := by cases f <;> decide

theorem Flag.bit_inj {f g : Flag} : f.bit = g.bit ↔ f = g := by cases f <;> cases g <;> simp [Flag.bit]

/-- Writing a flag changes that bit of P and no other (R24). -/
theorem getLsbD_setFlag (p : Byte) (f : Flag) (b : Bool) (i : Nat) (h : i < 8) :
    (setFlag p f b).getLsbD i = if i = f.bit then b else p.getLsbD i := by
  have hf := f.bit_lt
  unfold setFlag
  cases b <;> by_cases e : i = f.bit <;> simp [h, e, hf]

/-- A flag after writing a flag. -/
theorem flagOf_setFlag (p : Byte) (f g : Flag) (b : Bool) :
    flagOf (setFlag p f b) g = if g = f then b else flagOf p g := by
  unfold flagOf
  rw [getLsbD_setFlag _ _ _ _ g.bit_lt]
  simp [Flag.bit_inj]

/-- `UpdateZN` bit by bit (R110). -/
theorem getLsbD_updateZN (v p : Byte) (i : Nat) (h : i < 8) :
    (updateZN v p).getLsbD i = if i = 7 then v.getLsbD 7 else if i = 1 then v == 0 else p.getLsbD i := by
  unfold updateZN
  rw [getLsbD_setFlag _ _ _ _ h, getLsbD_setFlag _ _ _ _ h]
  rfl

/-- P after ADC, bit by bit (R112). -/
theorem getLsbD_adcStatus (a m p : Byte) (i : Nat) (h : i < 8) :
    (adcStatus a m p).getLsbD i =
      if i = 7 then (adcResult a m (flagOf p .c)).getLsbD 7
      else if i = 1 then adcResult a m (flagOf p .c) == 0
      else if i = 6 then adcOverflow a m (flagOf p .c)
      else if i = 0 then adcCarry a m (flagOf p .c)
      else p.getLsbD i := by
  unfold adcStatus
  rw [getLsbD_updateZN _ _ _ h, getLsbD_setFlag _ _ _ _ h, getLsbD_setFlag _ _ _ _ h]
  rfl

/-- Two status bytes are equal when their eight bits are. -/
theorem status_ext {p q : Byte} (h : ∀ i, i < 8 → p.getLsbD i = q.getLsbD i) : p = q :=
  BitVec.eq_of_getLsbD_eq h

end Sys2Proof.Machine
end

