-- ==== Sys2Proof/Laws/HostInterface.lean ====
section
/-! SUPPORT. What load and reset answer where the parameters are well formed, said once. -/

namespace Sys2Proof.Machine

/-- The word access at the vector never faults (D2). -/
theorem vector_never_faults {c : Config} (hc : c.wf = true) : wordFaults c c.resetVector = false := by
  simp [Config.wf] at hc
  simp [wordFaults, hc]

/-- An image that fits: the memory after `load`. -/
theorem loadImage_fits {c : Config} {bytes : List Byte} {s : State} (hc : c.wf = true)
    (h : c.loadBase.toNat + bytes.length ≤ 65536) :
    loadImage c bytes s = .ok (s.setMem (((s.mem.writeBytes c.loadBase bytes).write c.resetVector (lowByte c.loadBase)).write
      (c.resetVector + 1) (highByte c.loadBase))) := by
  unfold loadImage
  rw [if_neg (by omega), Memory.writeWord, vector_never_faults hc]
  rfl

/-- The state after `reset`. -/
theorem resetBlock_wf {c : Config} (s : State) (hc : c.wf = true) :
    resetBlock c s = .ok ((((((s.setA 0).setX 0).setY (if c.resetClearsY then 0 else s.y)).setP 0).setPc
      (wordOf (s.mem.read (c.resetVector + 1)) (s.mem.read c.resetVector))).setRs .ready) := by
  rw [resetBlock, Memory.readWord, vector_never_faults hc]
  rfl

end Sys2Proof.Machine
end

