-- ==== Sys2Proof/Laws/Loop.lean ====
section
/-! SUPPORT. What a handler of the loop can do, said once: the resolver's fault, or the mnemonic's operation. -/

namespace Sys2Proof.Machine

/-- A handler raises the resolver's fault, or runs the operation of its mnemonic; none writes PC or Y (R66, R83, R84). -/
theorem handler_cases (c : Config) (d : Descriptor) (s : State) :
    (∃ k, handler c d s = .error k ∧ resolve c d.mode s.pc s = .error k) ∨
    ∃ t, handler c d s = .ok t ∧ t.pc = s.pc ∧ t.y = s.y ∧
      ((d.mnemonic = .brk ∧ t = brkOf s) ∨ (d.mnemonic = .tax ∧ t = taxOf s) ∨ (d.mnemonic = .inx ∧ t = inxOf s) ∨
        ∃ ea, resolve c d.mode s.pc s = .ok ea ∧
          ((d.mnemonic = .adc ∧ t = adcWith (s.load ea) s) ∨ (d.mnemonic = .and ∧ t = andWith (s.load ea) s) ∨
            (d.mnemonic = .lda ∧ t = ldaWith (s.load ea) s) ∨ (d.mnemonic = .sta ∧ t = staAt s ea))) := by
  unfold handler
  cases hm : d.mnemonic with
  | brk => right; exact ⟨_, rfl, rfl, rfl, .inl ⟨rfl, rfl⟩⟩
  | tax => right; exact ⟨_, rfl, rfl, rfl, .inr (.inl ⟨rfl, rfl⟩)⟩
  | inx => right; exact ⟨_, rfl, rfl, rfl, .inr (.inr (.inl ⟨rfl, rfl⟩))⟩
  | adc => cases hr : resolve c d.mode s.pc s with
    | error k => left; exact ⟨k, rfl, rfl⟩
    | ok ea => right; exact ⟨_, rfl, rfl, rfl, .inr (.inr (.inr ⟨ea, rfl, .inl ⟨rfl, rfl⟩⟩))⟩
  | and => cases hr : resolve c d.mode s.pc s with
    | error k => left; exact ⟨k, rfl, rfl⟩
    | ok ea => right; exact ⟨_, rfl, rfl, rfl, .inr (.inr (.inr ⟨ea, rfl, .inr (.inl ⟨rfl, rfl⟩)⟩))⟩
  | lda => cases hr : resolve c d.mode s.pc s with
    | error k => left; exact ⟨k, rfl, rfl⟩
    | ok ea => right; exact ⟨_, rfl, rfl, rfl, .inr (.inr (.inr ⟨ea, rfl, .inr (.inr (.inl ⟨rfl, rfl⟩))⟩))⟩
  | sta => cases hr : resolve c d.mode s.pc s with
    | error k => left; exact ⟨k, rfl, rfl⟩
    | ok ea => right; exact ⟨_, rfl, rfl, rfl, .inr (.inr (.inr ⟨ea, rfl, .inr (.inr (.inr ⟨rfl, rfl⟩))⟩))⟩

end Sys2Proof.Machine
end

