-- ==== Sys2Proof/Laws/Memory.lean ====
section
/-! SUPPORT. What each memory operation does, said once: reads after writes, and that every write keeps the canonical form. -/

namespace Sys2Proof.Machine

/-! ### Reads after writes -/

theorem Memory.cell_erase (m : Memory) (k j : Nat) : (m.erase k).cell j = if j = k then 0 else m.cell j := by
  induction m with
  | nil => simp [Memory.erase, Memory.cell]
  | cons c m ih =>
    simp only [Memory.erase, List.filter] at ih ⊢
    by_cases hck : c.1 = k
    · simp only [hck, bne_self_eq_false, ih, Memory.cell]
      split_ifs <;> simp_all
    · have : (c.1 != k) = true := by simpa using hck
      simp only [this, Memory.cell, ih]
      split_ifs <;> simp_all

theorem Memory.cell_insert (m : Memory) (k : Nat) (v : Byte) (j : Nat) (h : m.cell k = 0 ∧ ∀ c ∈ m, c.1 ≠ k) :
    (m.insert k v).cell j = if j = k then v else m.cell j := by
  induction m with
  | nil => simp only [Memory.insert, Memory.cell, @eq_comm _ k j]
  | cons c m ih =>
    have hc : c.1 ≠ k := h.2 c (by simp)
    have hm : Memory.cell m k = 0 := by simpa [Memory.cell, hc] using h.1
    have ih := ih ⟨hm, fun d hd => h.2 d (by simp [hd])⟩
    simp only [Memory.insert]
    split
    · simp only [Memory.cell, @eq_comm _ k j]
    · by_cases hj : j = k
      · subst hj; simp only [Memory.cell, ih, hc, if_false, if_true]
      · simp only [Memory.cell, ih, hj, if_false]

theorem Memory.not_mem_erase (m : Memory) (k : Nat) : ∀ c ∈ m.erase k, c.1 ≠ k := by
  intro c hc
  simpa using (List.mem_filter.mp hc).2

/-- A cell after a write: the value written at its key, and every other cell as before. -/
theorem Memory.cell_setCell (m : Memory) (k : Nat) (v : Byte) (j : Nat) :
    (m.setCell k v).cell j = if j = k then v else m.cell j := by
  unfold Memory.setCell
  split
  · next h => rw [Memory.cell_erase, h]
  · rw [Memory.cell_insert _ _ _ _ ⟨by simp [Memory.cell_erase], Memory.not_mem_erase m k⟩, Memory.cell_erase]
    split_ifs <;> rfl

/-- `MemRead` after `MemWrite` (R46, R47, R52). -/
theorem Memory.read_write (m : Memory) (a b : Addr) (v : Byte) :
    (m.write a v).read b = if b = a then v else m.read b := by
  simp only [Memory.read, Memory.write, Memory.cell_setCell, BitVec.toNat_inj]

theorem Memory.read_write_same (m : Memory) (a : Addr) (v : Byte) : (m.write a v).read a = v := by
  simp [Memory.read_write]

theorem Memory.read_write_other (m : Memory) {a b : Addr} (v : Byte) (h : b ≠ a) :
    (m.write a v).read b = m.read b := by
  simp [Memory.read_write, h]

/-! ### The canonical form -/

/-- The canonical form as a list property: sorted, below 65536, nothing equal to 0. -/
theorem Memory.wf_iff (m : Memory) :
    m.wf = true ↔ m.Pairwise (fun c d => c.1 < d.1) ∧ ∀ c ∈ m, c.1 < 65536 ∧ c.2 ≠ 0 := by
  induction m with
  | nil => simp [Memory.wf]
  | cons c m ih =>
    cases m with
    | nil => simp [Memory.wf]
    | cons d m =>
      simp only [Memory.wf, Bool.and_eq_true, decide_eq_true_eq, ih, bne_iff_ne, ne_eq, List.pairwise_cons,
        List.mem_cons]
      constructor
      · rintro ⟨⟨hcd, hc⟩, ⟨hd, hp⟩, hall⟩
        refine ⟨⟨?_, hd, hp⟩, ?_⟩
        · rintro e (rfl | he)
          · exact hcd
          · exact Nat.lt_trans hcd (hd e he)
        · rintro e (rfl | he)
          · exact ⟨Nat.lt_trans hcd (hall d (by simp)).1, hc⟩
          · exact hall e he
      · rintro ⟨⟨hc, hd, hp⟩, hall⟩
        exact ⟨⟨hc d (by simp), (hall c (by simp)).2⟩, ⟨hd, hp⟩, fun e he => hall e (by simp [he])⟩

theorem Memory.wf_erase {m : Memory} (h : m.wf = true) (k : Nat) : (m.erase k).wf = true := by
  rw [Memory.wf_iff] at h ⊢
  exact ⟨h.1.filter _, fun c hc => h.2 c (List.mem_filter.mp hc).1⟩

theorem Memory.mem_insert {m : Memory} {k : Nat} {v : Byte} {c : Host.Cell} :
    c ∈ m.insert k v ↔ c = (k, v) ∨ c ∈ m := by
  induction m with
  | nil => simp [Memory.insert]
  | cons d m ih =>
    simp only [Memory.insert]
    split
    · simp
    · simp only [List.mem_cons, ih]; tauto

theorem Memory.wf_insert {m : Memory} (h : m.wf = true) {k : Nat} {v : Byte} (hk : k < 65536) (hv : v ≠ 0)
    (hn : ∀ c ∈ m, c.1 ≠ k) : (m.insert k v).wf = true := by
  rw [Memory.wf_iff] at h ⊢
  refine ⟨?_, fun c hc => (Memory.mem_insert.mp hc).elim (fun e => e ▸ ⟨hk, hv⟩) (h.2 c)⟩
  obtain ⟨hs, -⟩ := h
  induction m with
  | nil => simp [Memory.insert]
  | cons d m ih =>
    have hd : d.1 ≠ k := hn d (by simp)
    rw [List.pairwise_cons] at hs
    simp only [Memory.insert]
    split
    · next hlt =>
      refine List.pairwise_cons.mpr ⟨?_, List.pairwise_cons.mpr hs⟩
      rintro c hc
      rcases List.mem_cons.mp hc with rfl | hc
      · exact hlt
      · exact Nat.lt_trans hlt (hs.1 c hc)
    · next hge =>
      refine List.pairwise_cons.mpr ⟨?_, ih (fun c hc => hn c (by simp [hc])) hs.2⟩
      intro c hc
      rcases Memory.mem_insert.mp hc with rfl | hc
      · show d.1 < k; omega
      · exact hs.1 c hc

/-- Every write keeps the canonical form. -/
theorem Memory.wf_write {m : Memory} (h : m.wf = true) (a : Addr) (v : Byte) : (m.write a v).wf = true := by
  unfold Memory.write Memory.setCell
  split
  · exact Memory.wf_erase h _
  · next hv => exact Memory.wf_insert (Memory.wf_erase h _) a.isLt hv (Memory.not_mem_erase m _)

theorem Memory.wf_writeBytes {m : Memory} (h : m.wf = true) (a : Addr) (bs : List Byte) :
    (m.writeBytes a bs).wf = true := by
  induction bs generalizing m a with
  | nil => exact h
  | cons b bs ih => exact ih (Memory.wf_write h a b) (a + 1)

/-- A word write that does not fault keeps the canonical form. -/
theorem Memory.wf_writeWord {c : Config} {m m' : Memory} (h : m.wf = true) {a v : Addr}
    (e : m.writeWord c a v = .ok m') : m'.wf = true := by
  unfold Memory.writeWord at e
  split at e
  · cases e
  · cases e; exact Memory.wf_write (Memory.wf_write h _ _) _ _

/-- Equal reads are equal memories: the canonical form is canonical. -/
theorem Memory.ext_of_wf {m n : Memory} (hm : m.wf = true) (hn : n.wf = true) (h : ∀ a, m.read a = n.read a) : m = n := by
  rw [Memory.wf_iff] at hm hn
  have key : ∀ (l : Memory), (l.Pairwise fun c d => c.1 < d.1) → (∀ c ∈ l, c.1 < 65536 ∧ c.2 ≠ 0) →
      ∀ c : Host.Cell, c ∈ l ↔ c.1 < 65536 ∧ c.2 ≠ 0 ∧ l.cell c.1 = c.2 := by
    intro l
    induction l with
    | nil => intro _ _ c; simp only [List.not_mem_nil, Memory.cell, false_iff, not_and]; exact fun _ h e => h e.symm
    | cons d l ih =>
      intro hs hall c
      rw [List.pairwise_cons] at hs
      have ih := ih hs.2 (fun e he => hall e (by simp [he])) c
      simp only [List.mem_cons, Memory.cell]
      constructor
      · rintro (rfl | hc)
        · exact ⟨(hall c (by simp)).1, (hall c (by simp)).2, by simp⟩
        · have := hs.1 c hc
          obtain ⟨h1, h2, h3⟩ := ih.mp hc
          exact ⟨h1, h2, by rw [if_neg (by omega), h3]⟩
      · rintro ⟨h1, h2, h3⟩
        by_cases hdc : d.1 = c.1
        · left; rw [if_pos hdc] at h3; exact Prod.ext hdc.symm h3.symm
        · right; rw [if_neg hdc] at h3; exact ih.mpr ⟨h1, h2, h3⟩
  have hmem : ∀ c : Host.Cell, c ∈ m ↔ c ∈ n := by
    intro c
    rw [key m hm.1 hm.2, key n hn.1 hn.2]
    by_cases hc : c.1 < 65536
    · have := h (BitVec.ofNat 16 c.1)
      simp only [Memory.read, BitVec.toNat_ofNat, Nat.mod_eq_of_lt (show c.1 < 2 ^ 16 from hc)] at this
      rw [this]
    · simp [hc]
  have anti : ∀ c d : Host.Cell, c.1 < d.1 → d.1 < c.1 → c = d := fun c d h1 h2 => absurd h1 (by omega)
  have nd : ∀ l : Memory, (l.Pairwise fun c d => c.1 < d.1) → l.Nodup := fun l hl =>
    hl.imp (fun {c d} hcd e => by rw [e] at hcd; exact absurd hcd (Nat.lt_irrefl _))
  exact ((List.perm_ext_iff_of_nodup (nd m hm.1) (nd n hn.1)).mpr hmem).eq_of_pairwise
    (fun c d _ _ h1 h2 => anti c d h1 h2) hm.1 hn.1

/-! ### Word accesses -/

/-- A word access faults exactly at `0xFFFF` under `WORD_AT_TOP = fault` (R48, R49). -/
theorem wordFaults_iff (c : Config) (a : Addr) : wordFaults c a = true ↔ a = 0xFFFF ∧ c.wordAtTop = .fault := by
  simp [wordFaults]

/-- What a word read can answer (R48). -/
theorem Memory.readWord_cases (c : Config) (m : Memory) (a : Addr) :
    (wordFaults c a = true ∧ m.readWord c a = .error .memoryAddressOutOfRange) ∨
    (wordFaults c a = false ∧ m.readWord c a = .ok (wordOf (m.read (a + 1)) (m.read a))) := by
  unfold Memory.readWord
  cases wordFaults c a <;> simp

/-- What a word write can answer (R49). -/
theorem Memory.writeWord_cases (c : Config) (m : Memory) (a v : Addr) :
    (wordFaults c a = true ∧ m.writeWord c a v = .error .memoryAddressOutOfRange) ∨
    (wordFaults c a = false ∧
      m.writeWord c a v = .ok ((m.write a (lowByte v)).write (a + 1) (highByte v))) := by
  unfold Memory.writeWord
  cases wordFaults c a <;> simp

/-- Bytes laid out below the top of memory, read back one by one; every other cell is as before. -/
theorem Memory.read_writeBytes (m : Memory) (a : Addr) (bs : List Byte) (h : a.toNat + bs.length ≤ 65536) (b : Addr) :
    (m.writeBytes a bs).read b = (if a.toNat ≤ b.toNat then bs[b.toNat - a.toNat]? else none).getD (m.read b) := by
  induction bs generalizing m a with
  | nil => simp [Memory.writeBytes]
  | cons x bs ih =>
    simp only [List.length_cons] at h
    by_cases hb : bs = []
    · subst hb
      simp only [Memory.writeBytes, Memory.read_write]
      by_cases he : b = a
      · simp [he]
      · have : b.toNat ≠ a.toNat := fun e => he (BitVec.eq_of_toNat_eq e)
        simp only [he, if_false]
        split
        · have : b.toNat - a.toNat ≠ 0 := by omega
          obtain ⟨k, hk⟩ := Nat.exists_eq_succ_of_ne_zero this
          simp [hk]
        · rfl
    · have hlen : 0 < bs.length := by cases bs <;> simp_all
      have ha : (a + 1).toNat = a.toNat + 1 := by simp; omega
      simp only [Memory.writeBytes]
      rw [ih (m.write a x) (a + 1) (by omega), Memory.read_write, ha]
      by_cases he : b = a
      · subst he; simp
      · have : b.toNat ≠ a.toNat := fun e => he (BitVec.eq_of_toNat_eq e)
        simp only [he, if_false]
        by_cases hle : a.toNat ≤ b.toNat
        · have e : b.toNat - a.toNat = (b.toNat - (a.toNat + 1)) + 1 := by omega
          rw [if_pos (by omega), if_pos hle, e]; simp
        · rw [if_neg (by omega), if_neg hle]

end Sys2Proof.Machine
end

