-- ==== Sys2Proof/Laws/Operands.lean ====
section
/-! SUPPORT. What fetching a 16-bit operand and resolving an absolute mode can answer, said once (R102 to R104). -/

namespace Sys2Proof.Machine

theorem zext16_toNat (b : Byte) : (zext16 b).toNat = b.toNat := by
  have := b.isLt
  simp only [zext16, BitVec.toNat_ofNat]
  omega

/-- A 16-bit operand faults exactly when its first byte is at `0xFFFF` under `WORD_AT_TOP = fault`; else it is the operand. -/
theorem operandWord_cases (c : Config) (ad : Addr) (s : State) :
    (wordFaults c s.pc = true ∧ operandWord c ad s = .error .memoryAddressOutOfRange) ∨
    (wordFaults c s.pc = false ∧ operandWord c ad s = .ok ad) := by
  unfold operandWord
  cases wordFaults c s.pc <;> simp

theorem eaAbsoluteX_cases (c : Config) (ad : Addr) (s : State) :
    (wordFaults c s.pc = true ∧ eaAbsoluteX c ad s = .error .memoryAddressOutOfRange) ∨
    (wordFaults c s.pc = false ∧ eaAbsoluteX c ad s = .ok (ad + zext16 s.x)) := by
  unfold eaAbsoluteX operandWord
  cases wordFaults c s.pc <;> simp [Except.map]

theorem eaAbsoluteY_cases (c : Config) (ad : Addr) (s : State) :
    (wordFaults c s.pc = true ∧ eaAbsoluteY c ad s = .error .memoryAddressOutOfRange) ∨
    (wordFaults c s.pc = false ∧ eaAbsoluteY c ad s = .ok (ad + zext16 s.y)) := by
  unfold eaAbsoluteY operandWord
  cases wordFaults c s.pc <;> simp [Except.map]

end Sys2Proof.Machine
end

