-- ==== Sys2Proof/Laws/PerInstr.lean ====
section
/-! SUPPORT. The family `Shape`: every instruction is well formed for any parameters, its encoding starts with its opcode, has
the length of its mode, and its descriptor is well formed. One lemma per constructor. -/

namespace Sys2Proof.Laws.Shape

/-- Well formed, its opcode first, and as long as its mode says (R60, R62). -/
def Statement (i : Instr) : Prop :=
  ∀ c : Config, i.wf c = true ∧ (i.descriptor c).wf = true ∧ (encode i).head? = some i.opcode ∧
    (encode i).length = i.length ∧ i.length = (i.mode c).bytes

/-- The mode of `0xB1` has two bytes under both settings (R70). -/
theorem b1_shape (c : Config) (zp : Byte) : (Instr.ldaIndY zp).wf c = true ∧ ((Instr.ldaIndY zp).descriptor c).wf = true ∧
    (Instr.ldaIndY zp).length = ((Instr.ldaIndY zp).mode c).bytes := by
  cases h : c.ldaB1Mode <;>
    simp [Instr.wf, Instr.descriptor, tableRow, Descriptor.wf, Instr.mode, h, B1Mode.mode, Instr.mnemonic, formInScope,
      Mnemonic.addressed, Instr.operand, Operand.fits, Mode.bytes, Instr.length, Operand.encode]

theorem adcImm (v : Byte) : Statement (.adcImm v) := fun _ => ⟨rfl, rfl, rfl, rfl, rfl⟩
theorem adcZp (zp : Byte) : Statement (.adcZp zp) := fun _ => ⟨rfl, rfl, rfl, rfl, rfl⟩
theorem adcZpX (zp : Byte) : Statement (.adcZpX zp) := fun _ => ⟨rfl, rfl, rfl, rfl, rfl⟩
theorem adcAbs (ad : Addr) : Statement (.adcAbs ad) := fun _ => ⟨rfl, rfl, rfl, rfl, rfl⟩
theorem adcAbsX (ad : Addr) : Statement (.adcAbsX ad) := fun _ => ⟨rfl, rfl, rfl, rfl, rfl⟩
theorem adcAbsY (ad : Addr) : Statement (.adcAbsY ad) := fun _ => ⟨rfl, rfl, rfl, rfl, rfl⟩
theorem adcIndX (zp : Byte) : Statement (.adcIndX zp) := fun _ => ⟨rfl, rfl, rfl, rfl, rfl⟩
theorem adcIndY (zp : Byte) : Statement (.adcIndY zp) := fun _ => ⟨rfl, rfl, rfl, rfl, rfl⟩
theorem andImm (v : Byte) : Statement (.andImm v) := fun _ => ⟨rfl, rfl, rfl, rfl, rfl⟩
theorem andZp (zp : Byte) : Statement (.andZp zp) := fun _ => ⟨rfl, rfl, rfl, rfl, rfl⟩
theorem andZpX (zp : Byte) : Statement (.andZpX zp) := fun _ => ⟨rfl, rfl, rfl, rfl, rfl⟩
theorem andAbs (ad : Addr) : Statement (.andAbs ad) := fun _ => ⟨rfl, rfl, rfl, rfl, rfl⟩
theorem andAbsX (ad : Addr) : Statement (.andAbsX ad) := fun _ => ⟨rfl, rfl, rfl, rfl, rfl⟩
theorem andAbsY (ad : Addr) : Statement (.andAbsY ad) := fun _ => ⟨rfl, rfl, rfl, rfl, rfl⟩
theorem andIndX (zp : Byte) : Statement (.andIndX zp) := fun _ => ⟨rfl, rfl, rfl, rfl, rfl⟩
theorem andIndY (zp : Byte) : Statement (.andIndY zp) := fun _ => ⟨rfl, rfl, rfl, rfl, rfl⟩
theorem ldaImm (v : Byte) : Statement (.ldaImm v) := fun _ => ⟨rfl, rfl, rfl, rfl, rfl⟩
theorem ldaZp (zp : Byte) : Statement (.ldaZp zp) := fun _ => ⟨rfl, rfl, rfl, rfl, rfl⟩
theorem ldaZpX (zp : Byte) : Statement (.ldaZpX zp) := fun _ => ⟨rfl, rfl, rfl, rfl, rfl⟩
theorem ldaAbs (ad : Addr) : Statement (.ldaAbs ad) := fun _ => ⟨rfl, rfl, rfl, rfl, rfl⟩
theorem ldaAbsX (ad : Addr) : Statement (.ldaAbsX ad) := fun _ => ⟨rfl, rfl, rfl, rfl, rfl⟩
theorem ldaAbsY (ad : Addr) : Statement (.ldaAbsY ad) := fun _ => ⟨rfl, rfl, rfl, rfl, rfl⟩
theorem ldaIndX (zp : Byte) : Statement (.ldaIndX zp) := fun _ => ⟨rfl, rfl, rfl, rfl, rfl⟩
theorem ldaIndY (zp : Byte) : Statement (.ldaIndY zp) := fun c =>
  ⟨(b1_shape c zp).1, (b1_shape c zp).2.1, rfl, rfl, (b1_shape c zp).2.2⟩
theorem staZp (zp : Byte) : Statement (.staZp zp) := fun _ => ⟨rfl, rfl, rfl, rfl, rfl⟩
theorem staZpX (zp : Byte) : Statement (.staZpX zp) := fun _ => ⟨rfl, rfl, rfl, rfl, rfl⟩
theorem staAbs (ad : Addr) : Statement (.staAbs ad) := fun _ => ⟨rfl, rfl, rfl, rfl, rfl⟩
theorem staAbsX (ad : Addr) : Statement (.staAbsX ad) := fun _ => ⟨rfl, rfl, rfl, rfl, rfl⟩
theorem staAbsY (ad : Addr) : Statement (.staAbsY ad) := fun _ => ⟨rfl, rfl, rfl, rfl, rfl⟩
theorem staIndX (zp : Byte) : Statement (.staIndX zp) := fun _ => ⟨rfl, rfl, rfl, rfl, rfl⟩
theorem staIndY (zp : Byte) : Statement (.staIndY zp) := fun _ => ⟨rfl, rfl, rfl, rfl, rfl⟩
theorem tax : Statement .tax := fun _ => ⟨rfl, rfl, rfl, rfl, rfl⟩
theorem inx : Statement .inx := fun _ => ⟨rfl, rfl, rfl, rfl, rfl⟩
theorem brk : Statement .brk := fun _ => ⟨rfl, rfl, rfl, rfl, rfl⟩

end Sys2Proof.Laws.Shape
end

