-- ==== Sys2Proof/Tests/Slice0.lean ====
section
/-! SUPPORT. The model's own tests. Every expected value comes from spec/: 95_test_vectors.md where the comment names a section of
it, else the rule named, worked by hand. The last part holds one witness for each statement that has hypotheses. -/

namespace Sys2Proof.Tests

open Sys2Proof Sys2Proof.Machine

/-! ### Well-formedness: each check refuses an ill-formed term -/

/-- R62: the length is the mode's. -/
theorem test_wf_refuses_wrong_length :
    Descriptor.wf { opcode := 0x69, mnemonic := .adc, bytes := 3, cycles := 2, mode := .immediate } = false := by decide

/-- R66: an addressed mnemonic never has Implied. -/
theorem test_wf_refuses_addressed_implied :
    Descriptor.wf { opcode := 0x69, mnemonic := .adc, bytes := 1, cycles := 2, mode := .implied } = false := by decide

/-- R66: an implied mnemonic has no other mode. -/
theorem test_wf_refuses_implied_with_mode :
    Descriptor.wf { opcode := 0xAA, mnemonic := .tax, bytes := 2, cycles := 2, mode := .zeroPage } = false := by decide

/-- R124: STA has no Immediate form. -/
theorem test_wf_refuses_sta_immediate :
    Descriptor.wf { opcode := 0x89, mnemonic := .sta, bytes := 2, cycles := 2, mode := .immediate } = false := by decide

/-- R101: no form has ZeroPageY. -/
theorem test_wf_refuses_zero_page_y :
    Descriptor.wf { opcode := 0xB6, mnemonic := .lda, bytes := 2, cycles := 4, mode := .zeroPageY } = false := by decide

/-- R61: a mode with a 16-bit operand has no 8-bit one, and the other way round; Implied has none. -/
theorem test_operand_fits_refuses :
    Operand.fits (.op8 0x42) .absolute = false ∧ Operand.fits (.op16 0x1234) .zeroPage = false ∧
      Operand.fits .none .immediate = false ∧ Operand.fits (.op8 0x42) .implied = false := by decide

/-- D2: a vector whose word starts at `0xFFFF` is no reset vector. -/
theorem test_config_wf_refuses_top : Config.wf { Config.taken with resetVector := 0xFFFF } = false ∧ Config.taken.wf = true := by
  decide

/-! ### Decoding: the words of R67, R61 and R63, every row of the table -/

theorem test_decode_adc :
    [decode [0x69, 0x01], decode [0x65, 0x10], decode [0x75, 0xFF], decode [0x6D, 0x34, 0x12], decode [0x7D, 0xFF, 0x12],
      decode [0x79, 0xF0, 0xFF], decode [0x61, 0x20], decode [0x71, 0x40]].map Except.toOption =
    [.adcImm 0x01, .adcZp 0x10, .adcZpX 0xFF, .adcAbs 0x1234, .adcAbsX 0x12FF, .adcAbsY 0xFFF0, .adcIndX 0x20,
      .adcIndY 0x40].map fun i => some (i, []) := by decide

theorem test_decode_and :
    [decode [0x29, 0x0F], decode [0x25, 0x10], decode [0x35, 0xFF], decode [0x2D, 0x34, 0x12], decode [0x3D, 0xFF, 0x12],
      decode [0x39, 0xF0, 0xFF], decode [0x21, 0x20], decode [0x31, 0x40]].map Except.toOption =
    [.andImm 0x0F, .andZp 0x10, .andZpX 0xFF, .andAbs 0x1234, .andAbsX 0x12FF, .andAbsY 0xFFF0, .andIndX 0x20,
      .andIndY 0x40].map fun i => some (i, []) := by decide

theorem test_decode_lda :
    [decode [0xA9, 0xC0], decode [0xA5, 0x42], decode [0xB5, 0xFA], decode [0xAD, 0x34, 0x12], decode [0xBD, 0xFF, 0x12],
      decode [0xB9, 0xF0, 0xFF], decode [0xA1, 0x20], decode [0xB1, 0x40]].map Except.toOption =
    [.ldaImm 0xC0, .ldaZp 0x42, .ldaZpX 0xFA, .ldaAbs 0x1234, .ldaAbsX 0x12FF, .ldaAbsY 0xFFF0, .ldaIndX 0x20,
      .ldaIndY 0x40].map fun i => some (i, []) := by decide

theorem test_decode_sta :
    [decode [0x85, 0x10], decode [0x95, 0xFA], decode [0x8D, 0x00, 0x02], decode [0x9D, 0xFF, 0xFF], decode [0x99, 0xF0, 0xFF],
      decode [0x81, 0x1B], decode [0x91, 0x40]].map Except.toOption =
    [.staZp 0x10, .staZpX 0xFA, .staAbs 0x0200, .staAbsX 0xFFFF, .staAbsY 0xFFF0, .staIndX 0x1B, .staIndY 0x40].map
      fun i => some (i, []) := by decide

theorem test_decode_implied :
    [decode [0xAA], decode [0xE8], decode [0x00]].map Except.toOption = [.tax, .inx, .brk].map fun i => some (i, []) := by
  decide

/-- R68, R124: STA Immediate and JMP are no rows; a list that ends inside an instruction is refused by name. -/
theorem test_decode_refuses :
    decode [0x89, 0x10] = .error (.unknownOpcode 0x89) ∧ decode [0x4C, 0x00, 0x80] = .error (.unknownOpcode 0x4C) ∧
      decode [0x6D, 0x34] = .error (.truncated 0x6D) ∧ decode [] = .error .noBytes := by decide

/-- R61's number I: `b0 + 256*b1 + 65536*b2`; operand bits the table leaves out are 0; `0xEA` is no row. -/
theorem test_decode_table_word :
    decodeTableWord 24 0x12347D = some (.adcAbsX 0x1234) ∧ decodeTableWord 16 0x12347D = some (.adcAbsX 0x0034) ∧
      decodeTableWord 8 0xE8 = some .inx ∧ decodeTableWord 8 0xEA = none := by decide

/-! ### One step of each instruction -/

/-- Code at `0x0600` over the cells `data`, and the registers. -/
def machine (a x y p : Byte) (code : List Byte) (data : Memory) : State :=
  { State.reset with a := a, x := x, y := y, p := p, pc := 0x0600, mem := Memory.writeBytes data 0x0600 code }

/-- What the tests look at after one step: A, X, P and PC. -/
def stepped (s : State) : Option (Byte × Byte × Byte × Addr) := (nextOf (step s)).map fun t => (t.a, t.x, t.p, t.pc)

/-- The cell `k` and P after one step. -/
def cellAfter (s : State) (k : Addr) : Option (Byte × Byte) := (nextOf (step s)).map fun t => (t.load k, t.p)

/-- Section 2.2, S5. -/
theorem test_adc_imm_carry : stepped (machine 0xFF 0 0 0x00 [0x69, 0x01] []) = some (0x00, 0, 0x03, 0x0602) := by decide

/-- Section 2.2, S6, with the storage bits of P set (R25, R111). -/
theorem test_adc_imm_overflow : stepped (machine 0x7F 0 0 0x3C [0x69, 0x01] []) = some (0x80, 0, 0xFC, 0x0602) := by decide

/-- Program P3. -/
theorem test_adc_zp : stepped (machine 0xFF 0 0 0xC0 [0x65, 0x10] [(0x10, 0xA0)]) = some (0x9F, 0, 0x81, 0x0602) := by decide

/-- Section 2.2 (50 + 10) at the address of S8: not `0x0101`. -/
theorem test_adc_zpx_wraps :
    stepped (machine 0x50 0x02 0 0 [0x75, 0xFF] [(0x01, 0x10), (0x101, 0x77)]) = some (0x60, 0x02, 0x00, 0x0602) := by decide

/-- Section 2.2 (80 + FF + 1) at section 2.8's address. -/
theorem test_adc_abs : stepped (machine 0x80 0 0 0x01 [0x6D, 0x34, 0x12] [(0x1234, 0xFF)]) = some (0x80, 0, 0x81, 0x0603) := by
  decide

/-- Section 2.2 (7F + 7F + 1) at section 2.8's address. -/
theorem test_adc_absx : stepped (machine 0x7F 0x01 0 0x01 [0x7D, 0xFF, 0x12] [(0x1300, 0x7F)]) = some (0xFF, 0x01, 0xC0, 0x0603) := by
  decide

/-- Program P5. -/
theorem test_adc_absy : stepped (machine 0x00 0 0x20 0x42 [0x79, 0xF0, 0xFF] [(0x10, 0x80)]) = some (0x80, 0, 0x80, 0x0603) := by
  decide

/-- Section 2.2 (D0 + 90) at section 2.8's address. -/
theorem test_adc_indx :
    stepped (machine 0xD0 0x04 0x11 0 [0x61, 0x20] [(0x25, 0x03), (0x300, 0x90)]) = some (0x60, 0x04, 0x41, 0x0602) := by decide

/-- Section 2.2 (80 + 80) at section 2.8's address. -/
theorem test_adc_indy :
    stepped (machine 0x80 0x11 0x20 0 [0x71, 0x40] [(0x40, 0xFF), (0x41, 0x80), (0x811F, 0x80)]) = some (0x00, 0x11, 0x43, 0x0602) := by
  decide

/-- Section 2.3: C and V kept. -/
theorem test_and_imm : stepped (machine 0x00 0 0 0x41 [0x29, 0xFF] []) = some (0x00, 0, 0x43, 0x0602) := by decide

/-- Section 2.3, the other forms at section 2.8's addresses. -/
theorem test_and_zp : stepped (machine 0xFF 0 0 0 [0x25, 0x42] [(0x42, 0x80)]) = some (0x80, 0, 0x80, 0x0602) := by decide
theorem test_and_zpx : stepped (machine 0x3C 0x02 0 0x02 [0x35, 0xFF] [(0x01, 0x0F)]) = some (0x0C, 0x02, 0x00, 0x0602) := by decide
theorem test_and_abs : stepped (machine 0xF0 0 0 0 [0x2D, 0x34, 0x12] [(0x1234, 0x0F)]) = some (0x00, 0, 0x02, 0x0603) := by decide
theorem test_and_absx : stepped (machine 0xC3 0x01 0 0 [0x3D, 0xFF, 0xFF] [(0x00, 0xFF)]) = some (0xC3, 0x01, 0x80, 0x0603) := by decide
theorem test_and_absy : stepped (machine 0xC3 0 0x20 0 [0x39, 0xF0, 0xFF] [(0x10, 0xFF)]) = some (0xC3, 0, 0x80, 0x0603) := by decide
theorem test_and_indx :
    stepped (machine 0xFF 0x04 0 0 [0x21, 0x20] [(0x25, 0x03), (0x300, 0x80)]) = some (0x80, 0x04, 0x80, 0x0602) := by decide

/-- Program P4. -/
theorem test_and_indy :
    stepped (machine 0x0F 0x05 0 0 [0x31, 0x20] [(0x20, 0x34), (0x21, 0x12), (0x1234, 0x05)]) = some (0x05, 0x05, 0x00, 0x0602) := by
  decide

/-- Section 2.4, row by row. -/
theorem test_lda_imm : stepped (machine 0x55 0 0 0x80 [0xA9, 0x00] []) = some (0x00, 0, 0x02, 0x0602) := by decide
theorem test_lda_imm_keeps_cv : stepped (machine 0 0 0 0x41 [0xA9, 0x7F] []) = some (0x7F, 0, 0x41, 0x0602) := by decide
theorem test_lda_zp : stepped (machine 0 0 0 0 [0xA5, 0x42] [(0x42, 0xFF)]) = some (0xFF, 0, 0x80, 0x0602) := by decide
theorem test_lda_zpx : stepped (machine 0 0x06 0 0 [0xB5, 0xFA] [(0x00, 0x05)]) = some (0x05, 0x06, 0x00, 0x0602) := by decide
theorem test_lda_abs : stepped (machine 0 0 0 0 [0xAD, 0x34, 0x12] [(0x1234, 0x11)]) = some (0x11, 0, 0x00, 0x0603) := by decide
theorem test_lda_absx : stepped (machine 0 0x01 0 0 [0xBD, 0xFF, 0x12] [(0x1300, 0x22)]) = some (0x22, 0x01, 0x00, 0x0603) := by decide
theorem test_lda_absy : stepped (machine 0 0 0x20 0 [0xB9, 0xF0, 0xFF] [(0x10, 0x33)]) = some (0x33, 0, 0x00, 0x0603) := by decide
theorem test_lda_indx :
    stepped (machine 0 0x04 0 0 [0xA1, 0x20] [(0x25, 0x03), (0x300, 0x44)]) = some (0x44, 0x04, 0x00, 0x0602) := by decide
theorem test_lda_indy :
    stepped (machine 0 0 0x20 0 [0xB1, 0x40] [(0x40, 0xFF), (0x41, 0x80), (0x811F, 0x55)]) = some (0x55, 0, 0x00, 0x0602) := by decide

/-- Section 2.11: opcode `0xB1` under both settings. -/
theorem test_b1_both_settings :
    let s := machine 0 0x02 0x02 0 [0xB1, 0x10] [(0x11, 0x20), (0x13, 0x30), (0x2002, 0xAB), (0x3000, 0xCD)]
    ((loopStep Config.taken s).a = 0xAB ∧ (loopStep Config.taken s).p = 0x80 ∧ (loopStep Config.taken s).pc = 0x0602) ∧
      let h := loopStep { Config.taken with ldaB1Mode := .indirectX } s
      h.a = 0xCD ∧ h.p = 0x80 ∧ h.pc = 0x0602 := by decide

/-- Section 2.5, row by row: A = 5A, P = C3, P unchanged after. -/
theorem test_sta_zp : cellAfter (machine 0x5A 0 0 0xC3 [0x85, 0x10] []) 0x0010 = some (0x5A, 0xC3) := by decide
theorem test_sta_zpx : cellAfter (machine 0x5A 0x06 0 0xC3 [0x95, 0xFA] []) 0x0000 = some (0x5A, 0xC3) := by decide
theorem test_sta_abs : cellAfter (machine 0x5A 0 0 0xC3 [0x8D, 0x00, 0x02] []) 0x0200 = some (0x5A, 0xC3) := by decide
theorem test_sta_absx : cellAfter (machine 0x5A 0x01 0 0xC3 [0x9D, 0xFF, 0xFF] []) 0x0000 = some (0x5A, 0xC3) := by decide
theorem test_sta_absy : cellAfter (machine 0x5A 0 0x20 0xC3 [0x99, 0xF0, 0xFF] []) 0x0010 = some (0x5A, 0xC3) := by decide
theorem test_sta_indx :
    cellAfter (machine 0x5A 0x05 0 0xC3 [0x81, 0x1B] [(0x20, 0x34), (0x21, 0x12)]) 0x1234 = some (0x5A, 0xC3) := by decide
theorem test_sta_indy :
    cellAfter (machine 0x5A 0 0x20 0xC3 [0x91, 0x40] [(0x40, 0xF0), (0x41, 0xFF)]) 0x0010 = some (0x5A, 0xC3) := by decide

/-- Section 2.6. -/
theorem test_tax_zero : stepped (machine 0x00 0x77 0 0x80 [0xAA] []) = some (0x00, 0x00, 0x02, 0x0601) := by decide
theorem test_tax_keeps_c : stepped (machine 0x80 0 0 0x03 [0xAA] []) = some (0x80, 0x80, 0x81, 0x0601) := by decide
theorem test_inx_wraps : stepped (machine 0 0xFF 0 0x01 [0xE8] []) = some (0, 0x00, 0x03, 0x0601) := by decide
theorem test_inx_keeps_v : stepped (machine 0 0x7F 0 0x40 [0xE8] []) = some (0, 0x80, 0xC0, 0x0601) := by decide

/-- Section 2.7. -/
theorem test_brk :
    (nextOf (step (machine 0x12 0 0 0xC3 [0x00] []))).map (fun t => (t.rs, t.pc, t.a, t.p)) =
      some (.halted, 0x0601, 0x12, 0xC3) := by decide

/-- Section 2.7: the first step after `construct` is a BRK. -/
theorem test_brk_from_reset :
    (nextOf (step State.reset)).map (fun t => (t.rs, t.pc)) = some (.halted, 0x0001) := by decide

/-! ### Faults, the top of memory, load and reset (95_test_vectors.md 2.1, 2.8, 2.9, 2.10) -/

/-- Section 2.1. -/
theorem test_update_zn :
    updateZN 0x00 0x00 = 0x02 ∧ updateZN 0x00 0xFF = 0x7F ∧ updateZN 0x80 0x02 = 0x80 ∧ updateZN 0x01 0x82 = 0x00 ∧
      updateZN 0x7F 0x41 = 0x41 := by decide

/-- The step takes the fault, with PC one after the byte; the next step answers the same fault. -/
theorem test_unknown_opcode :
    (nextOf (step (machine 0 0 0 0 [0x89, 0x10] []))).map (fun t => (t.rs, t.pc)) =
      some (.faulted (.unknownOpcode 0x89), 0x0601) ∧
    step { State.reset with rs := .faulted (.unknownOpcode 0xFF) } = .fault (.unknownOpcode 0xFF) := ⟨by decide, rfl⟩

/-- A one-byte opcode and an immediate whose operand is at `0x0000`: both at `0xFFFF`. -/
theorem test_fetch_at_top :
    stepped { State.reset with pc := 0xFFFF, mem := [(0xFFFF, 0xE8)] } = some (0, 0x01, 0, 0x0000) ∧
    stepped { State.reset with pc := 0xFFFF, mem := [(0x0000, 0x42), (0xFFFF, 0xA9)] } = some (0x42, 0, 0, 0x0001) := by decide

/-- A word operand at `0xFFFF`, under both settings of WORD_AT_TOP. -/
theorem test_word_operand_at_top :
    let s := { State.reset with pc := 0xFFFE, mem := [(0x0000, 0x12), (0x1234, 0x77), (0xFFFE, 0xAD), (0xFFFF, 0x34)] }
    (nextOf (step s)).map (fun t => (t.rs, t.pc, t.a)) = some (.faulted .memoryAddressOutOfRange, 0xFFFF, 0) ∧
      let w := loopStep { Config.taken with wordAtTop := .wrap } s
      w.a = 0x77 ∧ w.p = 0x00 ∧ w.pc = 0x0001 := by decide

/-- IndirectX with the pointer at `0xFF`, under both settings of ZP_PTR_WRAP. -/
theorem test_zero_page_pointer_at_ff :
    let m : Memory := [(0x00, 0x12), (0xFF, 0x34), (0x100, 0x56)]
    zpPtr Config.taken m 0xFF = 0x1234 ∧ zpPtr { Config.taken with zpPtrWrap := .linear } m 0xFF = 0x5634 := by decide

/-- The resolver's only mode without a form, and the one with no address. -/
theorem test_resolve_zero_page_y_and_implied :
    let s := machine 0 0 0x20 0 [0xF0] []
    resolve Config.taken .zeroPageY 0x0600 s = .ok 0x0010 ∧
      resolve Config.taken .implied 0x0600 s = .error .invalidAddressingMode := ⟨rfl, rfl⟩

/-- The low byte of the vector's word is 0, so it is not listed; the image lies at LOAD_BASE. -/
theorem test_load :
    (loadImage Config.taken [0xA9, 0xC0] State.construct).toOption.map State.mem =
      some [(0x8000, 0xA9), (0x8001, 0xC0), (0xFFFD, 0x80)] := by decide

/-- An image that reaches past the top is refused; one that covers the vector has it replaced. -/
theorem test_load_edges :
    (loadImage { Config.taken with loadBase := 0xFFFF } [1, 2] State.construct) = .error .memoryAddressOutOfRange ∧
    (loadImage { Config.taken with loadBase := 0xFFFB } [1, 2, 3, 4] State.construct).toOption.map State.mem =
      some [(0xFFFB, 1), (0xFFFC, 0xFB), (0xFFFD, 0xFF), (0xFFFE, 4)] := ⟨rfl, by decide⟩

/-- The state before the resets of section 2.10, faulted. -/
def beforeReset : State :=
  { a := 1, x := 2, y := 3, p := 0xFF, pc := 0x0600, mem := [(0xFFFD, 0x80)], rs := .faulted (.unknownOpcode 0xFF) }

/-- Everything but memory after a reset of it. -/
def afterReset (c : Config) : Option (List Byte × Addr × RunState) :=
  (resetBlock c beforeReset).toOption.map fun t => ([t.a, t.x, t.y, t.p], t.pc, t.rs)

/-- Reset under both settings of RESET_CLEARS_Y. -/
theorem test_reset :
    afterReset Config.taken = some ([0, 0, 0, 0], 0x8000, .ready) ∧
      afterReset { Config.taken with resetClearsY := false } = some ([0, 0, 3, 0], 0x8000, .ready) := by decide

/-- The word access of section 2.9. -/
theorem test_word_write :
    (Memory.writeWord Config.taken [] 0xFFFC 0x8000).toOption = some [(0xFFFD, 0x80)] ∧
      (Memory.readWord Config.taken [(0x10, 0xAB), (0x11, 0xCD)] 0x0010).toOption = some 0xCDAB := by decide

/-- Memory is canonical at reset, and the placed word is the one the next step runs, from reset. -/
theorem test_reset_memory_and_placed_word :
    Memory.wf State.reset.mem = true ∧ stepped (State.reset.withFetchWord 16 0xC0A9) = some (0xC0, 0, 0x80, 0x0002) := by decide

/-! ### Witnesses: a concrete state and operands that meet all hypotheses of a statement together

One theorem for each statement of Certificates/Slice0/Obligations.lean that has hypotheses, named after it; a statement with
several clauses has a witness for each, at the ends of its range. -/

/-- A state with no fault is safe. -/
theorem safe_of_ready {s : State} (h : s.rs = .ready) : s.safe := fun k e => by rw [h] at e; cases e

theorem safe_of_halted {s : State} (h : s.rs = .halted) : s.safe := fun k e => by rw [h] at e; cases e

/-- A step that answers a next state, from a decidable fact about it. -/
theorem next_of {s : State} {p : State → Bool} (h : (nextOf (step s)).any p = true) : ∃ t, step s = .next t ∧ p t = true := by
  cases e : step s with
  | next t => rw [e] at h; exact ⟨t, rfl, h⟩
  | fault k => rw [e] at h; cases h
  | refused r => rw [e] at h; cases h

/-- `WORD_AT_TOP = wrap`, for the clauses about it. -/
def wrapping : Config := { Config.taken with wordAtTop := .wrap }

theorem test_witness_DecodedBytesAreItsEncoding : decode [0x7D, 0xFF, 0xFF, 0x00] = .ok (.adcAbsX 0xFFFF, [0x00]) := rfl

theorem test_witness_DecoderAgreesWithTable :
    decodeFetched 0x00 0xFF 0xFF = .ok .brk ∧ decodeFetched 0xFF 0x00 0x00 = .error (.unknownOpcode 0xFF) := ⟨rfl, rfl⟩

theorem test_witness_WordAccessIsLittleEndian :
    ((0xFFFF : Addr) = 0xFFFF ∧ Config.taken.wordAtTop = .fault) ∧ ¬ ((0xFFFE : Addr) = 0xFFFF ∧ Config.taken.wordAtTop = .fault) ∧
      ¬ ((0xFFFF : Addr) = 0xFFFF ∧ wrapping.wordAtTop = .fault) := by decide

theorem test_witness_WordReadSeesByteWrites :
    ¬ ((0xFFFE : Addr) = 0xFFFF ∧ Config.taken.wordAtTop = .fault) ∧ ¬ ((0xFFFF : Addr) = 0xFFFF ∧ wrapping.wordAtTop = .fault) := by
  decide

/-- Code that lies over the top of memory. -/
def atTop : State := { State.reset with pc := 0xFFFF, mem := [(0x0000, 0x42), (0xFFFF, 0xA9)] }

theorem test_witness_StepRunsTheDecodedInstr :
    atTop.safe ∧ decode [atTop.load atTop.pc, atTop.load (atTop.pc + 1), atTop.load (atTop.pc + 2)] = .ok (.ldaImm 0x42, [0x00]) :=
  ⟨safe_of_ready rfl, rfl⟩

theorem test_witness_StoredEncodingIsRun : atTop.safe := safe_of_ready rfl

theorem test_witness_PlacedTableWordIsRun :
    decodeTableWord 8 0xE8 = some .inx ∧ decodeTableWord 24 0xFFFF7D = some (.adcAbsX 0xFFFF) := by decide

/-- A faulted block. -/
def faultedBlock : State := { State.reset with pc := 0x0001, mem := [(0x0000, 0xFF)], rs := .faulted (.unknownOpcode 0xFF) }

theorem test_witness_StepRefinesTheLoop : State.reset.safe ∧ faultedBlock.rs = .faulted (.unknownOpcode 0xFF) :=
  ⟨safe_of_ready rfl, rfl⟩

theorem test_witness_SafeStatesStep : State.reset.safe ∧ { State.reset with rs := .halted }.safe :=
  ⟨safe_of_ready rfl, safe_of_halted rfl⟩

theorem test_witness_UnknownOpcodeIsTaken :
    (machine 0 0 0 0 [0x89] []).safe ∧
      lookupOpcode Config.taken ((machine 0 0 0 0 [0x89] []).load (machine 0 0 0 0 [0x89] []).pc) = none :=
  ⟨safe_of_ready rfl, by decide⟩

theorem test_witness_FaultStaysUntilReset :
    Config.taken.wf = true ∧ faultedBlock.rs = .faulted (.unknownOpcode 0xFF) := by decide

theorem test_witness_HaltResumesAtPc : { State.reset with rs := .halted }.rs = .halted := rfl

/-- A word operand at `0xFFFF`, whose step takes a fault. -/
def wordAtTop : State := { State.reset with pc := 0xFFFE, mem := [(0xFFFE, 0xAD), (0xFFFF, 0x34)] }

theorem test_witness_PcAfterAStep :
    (∃ t, step atTop = .next t ∧ t.safe) ∧ ∃ t, step wordAtTop = .next t ∧ ¬ t.safe := by
  constructor
  · obtain ⟨t, h, e⟩ := next_of (s := atTop) (p := fun t => decide (t.rs = .ready)) (by decide)
    exact ⟨t, h, safe_of_ready (of_decide_eq_true e)⟩
  · obtain ⟨t, h, e⟩ := next_of (s := wordAtTop) (p := fun t => decide (t.rs = .faulted .memoryAddressOutOfRange)) (by decide)
    exact ⟨t, h, fun k => k _ (of_decide_eq_true e)⟩

theorem test_witness_RunIsStepRepeated :
    (∃ t, runOp Config.taken 1 State.reset = some (t, .ok)) ∧ runOp Config.taken 1 atTop = none := ⟨⟨_, rfl⟩, by decide⟩

/-- The invariant, in a ready state that steps to a fault, in a halted one and in a faulted one that steps no more. -/
theorem test_witness_StepKeepsInv :
    (wordAtTop.Inv ∧ ∃ t, step wordAtTop = .next t) ∧
      { State.reset with pc := 0x0001, rs := .halted }.Inv ∧ faultedBlock.Inv := by
  refine ⟨⟨⟨by decide, trivial⟩, ?_⟩, ⟨by decide, rfl⟩, ⟨by decide, rfl, by decide⟩⟩
  obtain ⟨t, h, _⟩ := next_of (s := wordAtTop) (p := fun _ => true) (by decide)
  exact ⟨t, h⟩

theorem test_witness_RegistersChangeOnlyInTheirWriters :
    (∃ t, step (machine 0 0xFF 0 0 [0xE8] []) = .next t ∧ t.x ≠ 0xFF) ∧
    (∃ t, step (machine 0 0 0 0 [0x29, 0xFF] []) = .next t) ∧
    (∃ t, step (machine 0 0 0 0 [0xA9, 0x80] []) = .next t ∧ t.a ≠ 0) ∧
    ∃ t, step (machine 0x5A 0 0 0 [0x85, 0x10] []) = .next t ∧ t.load 0x10 ≠ (machine 0x5A 0 0 0 [0x85, 0x10] []).load 0x10 := by
  refine ⟨?_, ?_, ?_, ?_⟩
  · obtain ⟨t, h, e⟩ := next_of (s := machine 0 0xFF 0 0 [0xE8] []) (p := fun t => decide (t.x ≠ 0xFF)) (by decide)
    exact ⟨t, h, of_decide_eq_true e⟩
  · obtain ⟨t, h, _⟩ := next_of (s := machine 0 0 0 0 [0x29, 0xFF] []) (p := fun _ => true) (by decide)
    exact ⟨t, h⟩
  · obtain ⟨t, h, e⟩ := next_of (s := machine 0 0 0 0 [0xA9, 0x80] []) (p := fun t => decide (t.a ≠ 0)) (by decide)
    exact ⟨t, h, of_decide_eq_true e⟩
  · obtain ⟨t, h, e⟩ := next_of (s := machine 0x5A 0 0 0 [0x85, 0x10] [])
      (p := fun t => decide (t.load 0x10 ≠ (machine 0x5A 0 0 0 [0x85, 0x10] []).load 0x10)) (by decide)
    exact ⟨t, h, of_decide_eq_true e⟩

/-- ADC that changes C, and LDA that changes P alone of the two. -/
theorem test_witness_FlagsChangeOnlyInTheirWriters :
    (∃ t, step (machine 0xFF 0 0 0 [0x69, 0x01] []) = .next t ∧ ¬ sameCV (machine 0xFF 0 0 0 [0x69, 0x01] []) t) ∧
    ∃ t, step (machine 0 0 0 0 [0xA9, 0x80] []) = .next t ∧ t.p ≠ 0 := by
  constructor
  · obtain ⟨t, h, e⟩ := next_of (s := machine 0xFF 0 0 0 [0x69, 0x01] []) (p := fun t => t.flag .c) (by decide)
    exact ⟨t, h, fun k => by rw [k.1] at e; revert e; decide⟩
  · obtain ⟨t, h, e⟩ := next_of (s := machine 0 0 0 0 [0xA9, 0x80] []) (p := fun t => decide (t.p ≠ 0)) (by decide)
    exact ⟨t, h, of_decide_eq_true e⟩

/-- Two states that differ in all of bits 2 to 5, at an ADC. -/
theorem test_witness_StorageBitsHaveNoEffect :
    sameButStorageBits (machine 0xFF 0 0 0x00 [0x69, 0x01] []) (machine 0xFF 0 0 0x3C [0x69, 0x01] []) ∧
      ∃ t, step (machine 0xFF 0 0 0x00 [0x69, 0x01] []) = .next t := by
  refine ⟨⟨rfl, rfl, rfl, rfl, rfl, rfl, fun f => by cases f <;> decide⟩, ?_⟩
  obtain ⟨t, h, _⟩ := next_of (s := machine 0xFF 0 0 0x00 [0x69, 0x01] []) (p := fun _ => true) (by decide)
  exact ⟨t, h⟩

/-- Both ways to meet the condition: an ADC with C kept, and an opcode that is no ADC. -/
theorem test_witness_OnlyAdcReadsAFlag :
    ((∃ t, step (machine 0xFF 0 0 0x01 [0x69, 0x01] []) = .next t) ∧
      flagOf 0xFF .c = (machine 0xFF 0 0 0x01 [0x69, 0x01] []).flag .c) ∧
    (∃ t, step State.reset = .next t) ∧
      ∀ d, lookupOpcode Config.taken (State.reset.load State.reset.pc) = some d → d.mnemonic ≠ .adc := by
  refine ⟨⟨?_, by decide⟩, ?_, ?_⟩
  · obtain ⟨t, h, _⟩ := next_of (s := machine 0xFF 0 0 0x01 [0x69, 0x01] []) (p := fun _ => true) (by decide)
    exact ⟨t, h⟩
  · exact ⟨_, rfl⟩
  · intro d h
    have e : lookupOpcode Config.taken (State.reset.load State.reset.pc) = some (tableRow Config.taken 0x00 .brk .implied) := by
      decide
    rw [e] at h
    cases h
    decide

/-- A step that halts and one that does not. -/
theorem test_witness_OnlyBrkHalts :
    (∃ t, step State.reset = .next t ∧ t.rs = .halted) ∧ ∃ t, step atTop = .next t ∧ t.rs ≠ .halted := by
  refine ⟨⟨_, rfl, rfl⟩, ?_⟩
  obtain ⟨t, h, e⟩ := next_of (s := atTop) (p := fun t => decide (t.rs ≠ .halted)) (by decide)
  exact ⟨t, h, of_decide_eq_true e⟩

theorem test_witness_ZeroPagePointerRead :
    Config.taken.zpPtrWrap = .page0 ∧ { Config.taken with zpPtrWrap := .linear }.zpPtrWrap = .linear ∧ (0xFE : Byte) ≠ 0xFF ∧
      (0x00 : Byte) ≠ 0xFF := by decide

theorem test_witness_AbsoluteModes :
    ¬ ((0xFFFE : Addr) = 0xFFFF ∧ Config.taken.wordAtTop = .fault) ∧ ¬ ((0xFFFF : Addr) = 0xFFFF ∧ wrapping.wordAtTop = .fault) ∧
      ((0xFFFF : Addr) = 0xFFFF ∧ Config.taken.wordAtTop = .fault) ∧
      0x3400 = (wordAtTop.load (0xFFFE + 1)).toNat * 256 + (wordAtTop.load 0x0001).toNat := by decide

theorem test_witness_InvalidAddressingModeIsUnreachable :
    tableRow Config.taken 0xB1 .lda .indirectY ∈ opcodeTable Config.taken ∧ Mnemonic.addressed .lda = true ∧ State.reset.safe :=
  ⟨by decide, rfl, safe_of_ready rfl⟩

theorem test_witness_UpdateZnWritesTwoBits : (0 : Nat) ≠ 1 ∧ (0 : Nat) ≠ 7 ∧ (6 : Nat) ≠ 1 ∧ (6 : Nat) ≠ 7 := by decide

/-- Operand words at the last place that completes and at the one that faults. -/
theorem test_witness_AdcAddsWithCarry :
    { State.reset with pc := 0xFFFE }.pc ≠ 0xFFFF ∧
      (Config.taken.wordAtTop = .fault ∧ { State.reset with pc := 0xFFFF }.pc = 0xFFFF) := by decide

theorem test_witness_AndMasksTheAccumulator :
    { State.reset with pc := 0xFFFE }.pc ≠ 0xFFFF ∧
      (Config.taken.wordAtTop = .fault ∧ { State.reset with pc := 0xFFFF }.pc = 0xFFFF) := by decide

theorem test_witness_LdaLoadsTheAccumulator :
    { State.reset with pc := 0x0000 }.pc ≠ 0xFFFF ∧
      (Config.taken.wordAtTop = .fault ∧ { State.reset with pc := 0xFFFF }.pc = 0xFFFF) := by decide

theorem test_witness_OpcodeB1UnderBothSettings :
    Config.taken.ldaB1Mode = .indirectY ∧ { Config.taken with ldaB1Mode := .indirectX }.ldaB1Mode = .indirectX := by decide

theorem test_witness_StaStoresTheAccumulator :
    let s := { State.reset with x := 0x01, y := 0x20, pc := 0xFFFE }
    s.pc ≠ 0xFFFF ∧ eaAbsolute Config.taken 0xFFFF s = .ok 0xFFFF ∧ eaAbsoluteX Config.taken 0xFFFF s = .ok 0x0000 ∧
      eaAbsoluteY Config.taken 0xFFF0 s = .ok 0x0010 ∧
      (Config.taken.wordAtTop = .fault ∧ { State.reset with pc := 0xFFFF }.pc = 0xFFFF) :=
  ⟨by decide, rfl, rfl, rfl, by decide⟩

/-- STA into the very next instruction, with an A that is INX and with one that is no opcode. -/
def selfModifying (a : Byte) : State := machine a 0 0 0 [0x8D, 0x03, 0x06] []

theorem test_witness_StoreIsSeenByTheNextFetch :
    ((selfModifying 0xE8).safe ∧ (selfModifying 0xE8).pc ≠ 0xFFFE ∧
      decode [(selfModifying 0xE8).load 0x0600, (selfModifying 0xE8).load 0x0601, (selfModifying 0xE8).load 0x0602] =
        .ok (.staAbs 0x0603, []) ∧
      (0x0603 : Addr) = (selfModifying 0xE8).pc + 3 ∧ decodeFetched (selfModifying 0xE8).a 0 0 = .ok .inx) ∧
    lookupOpcode Config.taken (selfModifying 0xEA).a = none :=
  ⟨⟨safe_of_ready rfl, by decide, rfl, by decide, rfl⟩, by decide⟩

/-- An image one byte too long, and the longest that fits. -/
theorem test_witness_LoadCopiesImageThenVector :
    let c : Config := { Config.taken with loadBase := 0xFFFC }
    c.wf = true ∧ c.loadBase.toNat + ([1, 2, 3, 4, 5] : List Byte).length > 65536 ∧
      c.loadBase.toNat + ([1, 2, 3, 4] : List Byte).length ≤ 65536 ∧
      (0xFFFB : Addr) ≠ c.resetVector ∧ (0xFFFB : Addr) ≠ c.resetVector + 1 := by decide

theorem test_witness_ResetClearsAndLoadsPc : Config.taken.wf = true ∧ { Config.taken with resetVector := 0xFFFE }.wf = true := by
  decide

theorem test_witness_LoadThenResetStartsAtBase :
    Config.taken.wf = true ∧ Config.taken.loadBase.toNat + ([0xA9, 0xC0] : List Byte).length ≤ 65536 := by decide

theorem test_witness_LoadAndRunIsLoadResetRun :
    let c : Config := { Config.taken with loadBase := 0xFFFC }
    c.wf = true ∧ c.loadBase.toNat + ([1, 2, 3, 4, 5] : List Byte).length > 65536 ∧
      c.loadBase.toNat + ([1, 2, 3, 4] : List Byte).length ≤ 65536 := by decide

end Sys2Proof.Tests
end

section
/-! PROOF. No step depends on the cycle counts (O26; 00_scope.md R9, 70_reset_and_hazards.md R173): the parameter CYCLES reaches
a step only through the `cycles` field of the looked-up descriptor, and neither the handler nor the advance reads that field. -/

namespace Sys2Proof.Machine

/-- The row with its `cycles` field taken from other parameters. -/
def recount (c : Config) (d : Descriptor) : Descriptor := { d with cycles := cyclesOf c d.opcode }

@[simp] theorem recount_opcode (c : Config) (d : Descriptor) : (recount c d).opcode = d.opcode := rfl
@[simp] theorem recount_mnemonic (c : Config) (d : Descriptor) : (recount c d).mnemonic = d.mnemonic := rfl
@[simp] theorem recount_mode (c : Config) (d : Descriptor) : (recount c d).mode = d.mode := rfl
@[simp] theorem recount_bytes (c : Config) (d : Descriptor) : (recount c d).bytes = d.bytes := rfl

/-- Other cycle counts give the same 34 rows, recounted. -/
theorem opcodeTable_withCycles (c : Config) (cs : List CycleEntry) :
    opcodeTable { c with cycles := cs } = (opcodeTable c).map (recount { c with cycles := cs }) := rfl

/-- The lookup is by opcode alone, so it finds the same row, recounted. -/
theorem lookupOpcode_withCycles (c : Config) (cs : List CycleEntry) (b : Byte) :
    lookupOpcode { c with cycles := cs } b = (lookupOpcode c b).map (recount { c with cycles := cs }) := by
  rw [lookupOpcode, opcodeTable_withCycles, List.find?_map]
  rfl

/-- A word read depends on `WORD_AT_TOP` and no other parameter (R48). -/
theorem readWord_congr {c c' : Config} (hw : c'.wordAtTop = c.wordAtTop) (m : Memory) (a : Addr) :
    m.readWord c' a = m.readWord c a := by
  have hf : wordFaults c' a = wordFaults c a := by rw [wordFaults, wordFaults, hw]
  rw [Memory.readWord, Memory.readWord, hf]

/-- A zero-page pointer read depends on `ZP_PTR_WRAP` and no other parameter (R97). -/
theorem zpPtr_congr {c c' : Config} (hz : c'.zpPtrWrap = c.zpPtrWrap) (m : Memory) (p : Byte) :
    zpPtr c' m p = zpPtr c m p := by
  rw [zpPtr, zpPtr, hz]

/-- The resolver depends on these two parameters and no other. -/
theorem resolve_congr {c c' : Config} (hz : c'.zpPtrWrap = c.zpPtrWrap) (hw : c'.wordAtTop = c.wordAtTop)
    (m : Mode) (pc : Addr) (s : State) : resolve c' m pc s = resolve c m pc s := by
  cases m with
  | implied | immediate | zeroPage | zeroPageX | zeroPageY => rfl
  | absolute | absoluteX | absoluteY => simp only [resolve, readWord_congr hw]
  | indirectX => simp only [resolve, eaIndirectX, zpPtr_congr hz]
  | indirectY => simp only [resolve, eaIndirectY, zpPtr_congr hz]

/-- A handler reads the mnemonic and the mode of its row, never the count. -/
theorem handler_recount (c : Config) (cs : List CycleEntry) (d : Descriptor) (s : State) :
    handler { c with cycles := cs } (recount { c with cycles := cs } d) s = handler c d s := by
  have hr : resolve { c with cycles := cs } d.mode s.pc s = resolve c d.mode s.pc s := resolve_congr rfl rfl _ _ _
  simp only [handler, recount_mnemonic, recount_mode, hr]

theorem dispatchByte_withCycles (c : Config) (cs : List CycleEntry) (b : Byte) (s : State) :
    dispatchByte { c with cycles := cs } b s = dispatchByte c b s := by
  rw [dispatchByte, dispatchByte, lookupOpcode_withCycles]
  cases lookupOpcode c b with
  | none => rfl
  | some d => simp only [Option.map_some, handler_recount, recount_bytes]

/-- Settles O26: a faulted block does not step, and any other dispatches the fetched byte alike under both counts. -/
theorem cyclesAreNeverRead : Obligations.CyclesAreNeverRead := by
  intro c cycles s
  simp only [loopStep, dispatchByte_withCycles]

end Sys2Proof.Machine
end

section
/-! PROOF. The step over decoded instructions is the step of the loop (40_execution_loop.md R80): from a state that may step,
`step` answers the state `loopStep` gives at the values taken. Then what such a step can be, said once, by the mnemonic of the
fetched row. -/

namespace Sys2Proof

/-! ### What the decoder read -/

/-- The operand field is the one the two bytes after the opcode spell (R61, R63). -/
def Operand.readFrom (b1 b2 : Byte) : Operand → Prop
  | .none => True
  | .op8 b => b1 = b
  | .op16 a => wordOf b2 b1 = a

/-- Whatever operand the shape is given, the instruction has the opcode `b` and that operand (R61). -/
def Shape.fits (b : Byte) : Shape → Prop
  | .f1 i => i.opcode = b ∧ i.operand = .none
  | .f2 mk => ∀ v, (mk v).opcode = b ∧ (mk v).operand = .op8 v
  | .f3 mk => ∀ ad, (mk ad).opcode = b ∧ (mk ad).operand = .op16 ad

theorem shapeRows_fit : ∀ row ∈ shapeRows, row.2.fits row.1 := by
  simp only [shapeRows, adcShapes, andShapes, ldaShapes, staShapes, impliedShapes, List.forall_mem_append, List.forall_mem_cons]
  simp [Shape.fits, Instr.opcode, Instr.operand]

/-- A decoded instruction has the fetched byte as its opcode and its operand from the bytes after it. -/
theorem decodeFetched_ok {b0 b1 b2 : Byte} {i : Instr} (h : decodeFetched b0 b1 b2 = .ok i) :
    i.opcode = b0 ∧ i.operand.readFrom b1 b2 := by
  unfold decodeFetched at h
  cases hs : shapeOf b0 with
  | none => simp [hs] at h
  | some sh =>
    have hfit := shapeRows_fit _ (shapeOf_mem hs)
    cases sh with
    | f1 j =>
      obtain rfl : j = i := by simpa [hs] using h
      exact ⟨hfit.1, by rw [hfit.2]; trivial⟩
    | f2 mk =>
      obtain rfl : mk b1 = i := by simpa [hs] using h
      exact ⟨(hfit b1).1, by rw [(hfit b1).2]; rfl⟩
    | f3 mk =>
      obtain rfl : mk (wordOf b2 b1) = i := by simpa [hs] using h
      exact ⟨(hfit _).1, by rw [(hfit _).2]; rfl⟩

/-- The decoder's rows and the opcode table list the same opcodes (R67). -/
theorem shapeRows_opcodes (c : Config) : shapeRows.map Prod.fst = (opcodeTable c).map Descriptor.opcode := rfl

/-- A byte the decoder has no shape for has no row in the opcode table. -/
theorem lookupOpcode_of_shapeOf_none (c : Config) {b : Byte} (h : shapeOf b = none) : lookupOpcode c b = none := by
  have hb : b ∉ shapeRows.map Prod.fst := by
    rw [shapeOf, List.lookup_eq_none_iff] at h
    intro hm
    obtain ⟨row, hrow, rfl⟩ := List.mem_map.mp hm
    simpa using h row hrow
  rw [shapeRows_opcodes c] at hb
  rw [lookupOpcode, List.find?_eq_none]
  intro d hd hdb
  exact hb (List.mem_map.mpr ⟨d, hd, by simpa using hdb⟩)

/-- BRK's row is the one at `0x00` and no other (R67). -/
theorem lookupOpcode_brk {b : Byte} {d : Descriptor} (h : lookupOpcode Config.taken b = some d) :
    d.mnemonic = .brk ↔ b = 0x00 := by
  have hrows : ∀ d ∈ opcodeTable Config.taken, d.mnemonic = .brk ↔ d.opcode = 0x00 := by decide
  obtain rfl : d.opcode = b := by simpa using List.find?_some h
  exact hrows d (List.mem_of_find?_eq_some h)

end Sys2Proof

namespace Sys2Proof.Machine

/-! ### Dispatch over decoded instructions is dispatch over the table -/

/-- The state a handler's answer leaves at the end of the step: the fault taken, or the advance (R85, R87). -/
def endWith (n : Nat) (s : State) : Except Fault State → State
  | .error k => s.raise k
  | .ok t => t.advance n

theorem withAddress_eq_endWith (n : Nat) (ea : Except Fault Addr) (s : State) (f : Addr → State) :
    withAddress n ea s f = .next (endWith n s (ea.map f)) := by
  cases ea with
  | error k => rfl
  | ok a => rfl

theorem dispatchByte_of_row {c : Config} {b : Byte} {d : Descriptor} (h : lookupOpcode c b = some d) (s : State) :
    dispatchByte c b s = endWith d.bytes s (handler c d s) := by
  simp only [dispatchByte, h]
  cases handler c d s with
  | error k => rfl
  | ok t => rfl

theorem dispatchByte_of_no_row {c : Config} {b : Byte} (h : lookupOpcode c b = none) (s : State) :
    dispatchByte c b s = s.raise (.unknownOpcode b) := by
  simp only [dispatchByte, h]

/-- An instruction whose operand bytes are at PC runs as its row's handler does with the operand read in memory. -/
theorem exec_eq_dispatchByte (i : Instr) (s : State) (h : i.operand.readFrom (s.load s.pc) (s.load (s.pc + 1))) :
    exec i s = .next (dispatchByte Config.taken i.opcode s) := by
  rw [dispatchByte_of_row (lookupOpcode_opcode _ i)]
  cases i with
  | tax | inx | brk => rfl
  | adcImm | andImm | ldaImm
  | adcZp | adcZpX | adcIndX | adcIndY | andZp | andZpX | andIndX | andIndY
  | ldaZp | ldaZpX | ldaIndX | ldaIndY | staZp | staZpX | staIndX | staIndY => cases h; rfl
  | adcAbs | adcAbsX | adcAbsY | andAbs | andAbsX | andAbsY
  | ldaAbs | ldaAbsX | ldaAbsY | staAbs | staAbsX | staAbsY => cases h; exact withAddress_eq_endWith _ _ _ _

theorem State.codeByte_zero (s : State) : s.codeByte 0 = s.load s.pc := by
  simp [State.codeByte]

theorem loopStep_of_safe {s : State} (h : s.safe) (c : Config) :
    loopStep c s = dispatchByte c (s.load s.pc) s.fetched := by
  unfold loopStep
  cases hr : s.rs with
  | faulted k => exact absurd hr (h k)
  | ready | halted => rfl

/-- From a state that may step, the step is the loop's at the values taken. -/
theorem step_of_safe {s : State} (h : s.safe) : step s = .next (loopStep Config.taken s) := by
  rw [loopStep_of_safe h]
  rcases oneStep_cases s with ⟨k, hk, -⟩ | ⟨-, ⟨e, he⟩, hstep⟩ | ⟨-, i, hi, hstep⟩
  · exact absurd hk (h k)
  · have hnone := lookupOpcode_of_shapeOf_none Config.taken (shapeOf_of_error he)
    rw [State.codeByte_zero] at hnone hstep
    rw [dispatchByte_of_no_row hnone]
    exact hstep
  · obtain ⟨hop, hread⟩ := decodeFetched_ok hi
    rw [State.codeByte_zero] at hop
    have hpc : s.fetched.pc + 1 = s.pc + 2 := by rw [State.fetched_pc, BitVec.add_assoc]; rfl
    rw [← hop, ← exec_eq_dispatchByte i s.fetched (by rw [hpc]; exact hread)]
    exact hstep

theorem safe_of_step {s t : State} (h : step s = .next t) : s.safe := by
  intro k hk
  simp [step, oneStep, hk] at h

/-! ### What a step can be -/

/-- `HandlerRuns s n u`: the handler of the mnemonic `n`, run in `s`, leaves `u` (R66). -/
inductive HandlerRuns (s : State) : Mnemonic → State → Prop
  | adc (m : Byte) : HandlerRuns s .adc (adcWith m s)
  | and (m : Byte) : HandlerRuns s .and (andWith m s)
  | lda (m : Byte) : HandlerRuns s .lda (ldaWith m s)
  | sta (ea : Addr) : HandlerRuns s .sta (staAt s ea)
  | tax : HandlerRuns s .tax (taxOf s)
  | inx : HandlerRuns s .inx (inxOf s)
  | brk : HandlerRuns s .brk (brkOf s)

/-- A handler raises a fault, which only an addressed one can (R66, R84), or it runs its mnemonic's operation. -/
theorem handler_runs (c : Config) (d : Descriptor) (s : State) :
    (∃ k, handler c d s = .error k ∧ d.mnemonic.addressed = true) ∨
      ∃ u, handler c d s = .ok u ∧ HandlerRuns s d.mnemonic u := by
  rcases handler_cases c d s with ⟨k, hk, -⟩ | ⟨u, hu, -, -, hop⟩
  · refine .inl ⟨k, hk, ?_⟩
    cases hm : d.mnemonic with
    | adc | and | lda | sta => rfl
    | tax | inx | brk => simp [handler, hm] at hk
  · refine .inr ⟨u, hu, ?_⟩
    rcases hop with ⟨hm, rfl⟩ | ⟨hm, rfl⟩ | ⟨hm, rfl⟩ | ⟨ea, -, ⟨hm, rfl⟩ | ⟨hm, rfl⟩ | ⟨hm, rfl⟩ | ⟨hm, rfl⟩⟩ <;>
      rw [hm] <;> constructor

/-- A step takes a fault, where the fetched byte has no row or an addressed one, or runs its row's handler and advances. -/
theorem step_cases {s t : State} (h : step s = .next t) :
    (∃ k, t = s.fetched.raise k ∧
      ∀ d, lookupOpcode Config.taken (s.load s.pc) = some d → d.mnemonic.addressed = true) ∨
    ∃ d u, lookupOpcode Config.taken (s.load s.pc) = some d ∧ HandlerRuns s.fetched d.mnemonic u ∧
      t = u.advance d.bytes := by
  have hsafe := safe_of_step h
  rw [step_of_safe hsafe, loopStep_of_safe hsafe] at h
  cases h
  cases hd : lookupOpcode Config.taken (s.load s.pc) with
  | none => exact .inl ⟨_, dispatchByte_of_no_row hd _, fun _ e => nomatch e⟩
  | some d =>
    rw [dispatchByte_of_row hd]
    rcases handler_runs Config.taken d s.fetched with ⟨k, hk, haddr⟩ | ⟨u, hu, hruns⟩
    · refine .inl ⟨k, by rw [hk]; rfl, fun d' e => ?_⟩
      cases e
      exact haddr
    · exact .inr ⟨d, u, rfl, hruns, by rw [hu]; rfl⟩

end Sys2Proof.Machine
end

section
/-! PROOF. Who writes what (10_state.md R23 to R27): what each handler leaves unchanged, by mnemonic, and from it the writers of the
registers, of the flags and of the halt. -/

namespace Sys2Proof.Machine

/-! ### What a handler leaves unchanged -/

theorem HandlerRuns.y_eq {s u : State} {n : Mnemonic} (h : HandlerRuns s n u) : u.y = s.y := by
  cases h <;> rfl

/-- X is kept, or the handler is TAX's or INX's (R23). -/
theorem HandlerRuns.x_cases {s u : State} {n : Mnemonic} (h : HandlerRuns s n u) :
    u.x = s.x ∨ n = .tax ∨ n = .inx := by
  cases h with
  | tax => exact .inr (.inl rfl)
  | inx => exact .inr (.inr rfl)
  | adc | and | lda | sta | brk => exact .inl rfl

/-- A is kept, or the handler is ADC's, AND's or LDA's (R23). -/
theorem HandlerRuns.a_cases {s u : State} {n : Mnemonic} (h : HandlerRuns s n u) :
    u.a = s.a ∨ n = .adc ∨ n = .and ∨ n = .lda := by
  cases h with
  | adc => exact .inr (.inl rfl)
  | and => exact .inr (.inr (.inl rfl))
  | lda => exact .inr (.inr (.inr rfl))
  | sta | tax | inx | brk => exact .inl rfl

/-- Memory is kept, or the handler is STA's (R41). -/
theorem HandlerRuns.mem_cases {s u : State} {n : Mnemonic} (h : HandlerRuns s n u) : u.mem = s.mem ∨ n = .sta := by
  cases h with
  | sta => exact .inr rfl
  | adc | and | lda | tax | inx | brk => exact .inl rfl

/-- P is kept, or written by `UpdateZN` of some value, or by ADC (R26). -/
theorem HandlerRuns.p_cases {s u : State} {n : Mnemonic} (h : HandlerRuns s n u) :
    u.p = s.p ∨ (n ≠ .sta ∧ n ≠ .brk ∧ ∃ v, u.p = updateZN v s.p) ∨ (n = .adc ∧ ∃ m, u.p = adcStatus s.a m s.p) := by
  cases h with
  | sta | brk => exact .inl rfl
  | and | lda | tax | inx => exact .inr (.inl ⟨nofun, nofun, _, rfl⟩)
  | adc => exact .inr (.inr ⟨rfl, _, rfl⟩)

/-- RS is kept by every handler but BRK's, which halts (R86, R130). -/
theorem HandlerRuns.rs_halted_iff {s u : State} {n : Mnemonic} (h : HandlerRuns s n u) (hs : s.rs = .ready) :
    u.rs = .halted ↔ n = .brk := by
  cases h with
  | brk => exact iff_of_true rfl rfl
  | adc | and | lda | sta | tax | inx => exact iff_of_false (fun e => nomatch hs.symm.trans e) nofun

/-! ### The flags after an operation -/

theorem flagOf_updateZN (v p : Byte) (f : Flag) :
    flagOf (updateZN v p) f = if f = .n then v.getLsbD 7 else if f = .z then v == 0 else flagOf p f := by
  rw [updateZN, flagOf_setFlag, flagOf_setFlag]

theorem flagOf_adcStatus (a m p : Byte) (f : Flag) :
    flagOf (adcStatus a m p) f =
      if f = .n then (adcResult a m (flagOf p .c)).getLsbD 7
      else if f = .z then adcResult a m (flagOf p .c) == 0
      else if f = .v then adcOverflow a m (flagOf p .c)
      else if f = .c then adcCarry a m (flagOf p .c)
      else flagOf p f := by
  rw [adcStatus, flagOf_updateZN, flagOf_setFlag, flagOf_setFlag]

/-- No operation writes bits 2 to 5 of P (R25). -/
theorem HandlerRuns.sameStorageBits {s u : State} {n : Mnemonic} (h : HandlerRuns s n u) : sameStorageBits s u := by
  intro i hlo hhi
  have hi : i < 8 := by omega
  have hbits : i ≠ 7 ∧ i ≠ 6 ∧ i ≠ 1 ∧ i ≠ 0 := by omega
  rcases h.p_cases with hp | ⟨-, -, v, hp⟩ | ⟨-, m, hp⟩
  · rw [hp]
  · rw [hp, getLsbD_updateZN _ _ _ hi]; simp [hbits]
  · rw [hp, getLsbD_adcStatus _ _ _ _ hi]; simp [hbits]

/-- `UpdateZN` keeps C and V (R110), and ADC alone writes P otherwise. -/
theorem HandlerRuns.sameCV {s u : State} {n : Mnemonic} (h : HandlerRuns s n u) (hadc : n ≠ .adc) : sameCV s u := by
  rcases h.p_cases with hp | ⟨-, -, v, hp⟩ | ⟨rfl, -⟩
  · exact ⟨State.flag_of_p _ _ hp _, State.flag_of_p _ _ hp _⟩
  · constructor <;> simp [State.flag, hp, flagOf_updateZN]
  · exact absurd rfl hadc

/-! ### The obligations -/

/-- Settles O21: a fault taken writes none of the four, and each handler writes only its mnemonic's target. -/
theorem registersChangeOnlyInTheirWriters : Obligations.RegistersChangeOnlyInTheirWriters := by
  intro s t h
  rcases step_cases h with ⟨k, rfl, -⟩ | ⟨d, u, hd, hu, rfl⟩
  · exact ⟨rfl, fun hx => absurd rfl hx, fun ha => absurd rfl ha, fun _ hm => absurd rfl hm⟩
  · refine ⟨hu.y_eq, fun hx => ⟨d, hd, hu.x_cases.resolve_left hx⟩, fun ha => ⟨d, hd, hu.a_cases.resolve_left ha⟩,
      fun a hm => ⟨d, hd, hu.mem_cases.resolve_left fun hmem => hm ?_⟩⟩
    exact State.load_of_mem s u hmem a

/-- Settles O22: a fault taken keeps P, and the handlers write it as `HandlerRuns.p_cases` says. -/
theorem flagsChangeOnlyInTheirWriters : Obligations.FlagsChangeOnlyInTheirWriters := by
  intro s t h
  rcases step_cases h with ⟨k, rfl, -⟩ | ⟨d, u, hd, hu, rfl⟩
  · exact ⟨fun _ _ _ => rfl, fun hcv => absurd ⟨rfl, rfl⟩ hcv, fun hp => absurd rfl hp⟩
  · refine ⟨hu.sameStorageBits, fun hcv => ⟨d, hd, ?_⟩, fun hp => ⟨d, hd, ?_⟩⟩
    · by_contra hn
      exact hcv (hu.sameCV hn)
    · rcases hu.p_cases with hkept | ⟨hsta, hbrk, -⟩ | ⟨hadc, -⟩
      · exact absurd hkept hp
      · exact ⟨hsta, hbrk⟩
      · simp [hadc]

/-- Settles O25: a fault taken leaves RS Faulted, never at BRK's row; and of the handlers only BRK's halts. -/
theorem onlyBrkHalts : Obligations.OnlyBrkHalts := by
  intro s t h
  rcases step_cases h with ⟨k, rfl, haddr⟩ | ⟨d, u, hd, hu, rfl⟩
  · refine iff_of_false nofun fun hb => ?_
    rw [hb] at haddr
    exact nomatch haddr _ (lookupOpcode_opcode Config.taken .brk)
  · exact (hu.rs_halted_iff rfl).trans (lookupOpcode_brk hd)

/-- Settles O19: memory at reset is empty, hence canonical, and every cell of it reads 0, the vector's too. -/
theorem resetStateHasInv : Obligations.ResetStateHasInv := by
  have hinv : State.reset.Inv := ⟨rfl, trivial⟩
  have hreset : resetBlock Config.taken State.construct = .ok State.reset := resetBlock_wf _ rfl
  exact ⟨hinv, hreset, rfl, rfl, rfl, rfl, rfl, rfl, fun _ => rfl⟩

end Sys2Proof.Machine
end

section
/-! PROOF. What of P a step reads (10_state.md R25, R26): two runs from states that differ in P alone, and agree on a set of flags
that holds C where the step is an ADC, stay so. One relation serves both statements: all four flags, or just those that agree. -/

namespace Sys2Proof.Machine

/-- Two states that differ at most in P and agree there on the flags in `F`. -/
structure LikeButP (F : Flag → Prop) (s s' : State) : Prop where
  a : s'.a = s.a
  x : s'.x = s.x
  y : s'.y = s.y
  pc : s'.pc = s.pc
  mem : s'.mem = s.mem
  rs : s'.rs = s.rs
  flag : ∀ f, F f → s'.flag f = s.flag f

theorem sameButStorageBits_iff (s s' : State) : sameButStorageBits s s' ↔ LikeButP (fun _ => True) s s' :=
  ⟨fun ⟨ha, hx, hy, hpc, hm, hrs, hf⟩ => ⟨ha, hx, hy, hpc, hm, hrs, fun f _ => hf f⟩,
    fun h => ⟨h.a, h.x, h.y, h.pc, h.mem, h.rs, fun f => h.flag f trivial⟩⟩

namespace LikeButP

variable {F : Flag → Prop} {s s' : State}

/-! ### Each state operation keeps the relation -/

theorem load (h : LikeButP F s s') (ea : Addr) : s'.load ea = s.load ea := State.load_of_mem s s' h.mem ea

theorem setA (h : LikeButP F s s') (v : Byte) : LikeButP F (s.setA v) (s'.setA v) :=
  ⟨rfl, h.x, h.y, h.pc, h.mem, h.rs, h.flag⟩

theorem setX (h : LikeButP F s s') (v : Byte) : LikeButP F (s.setX v) (s'.setX v) :=
  ⟨h.a, rfl, h.y, h.pc, h.mem, h.rs, h.flag⟩

theorem setPc (h : LikeButP F s s') (v : Addr) : LikeButP F (s.setPc v) (s'.setPc v) :=
  ⟨h.a, h.x, h.y, rfl, h.mem, h.rs, h.flag⟩

theorem setRs (h : LikeButP F s s') (r : RunState) : LikeButP F (s.setRs r) (s'.setRs r) :=
  ⟨h.a, h.x, h.y, h.pc, h.mem, rfl, h.flag⟩

theorem setP (h : LikeButP F s s') {q q' : Byte} (hq : ∀ f, F f → flagOf q' f = flagOf q f) :
    LikeButP F (s.setP q) (s'.setP q') :=
  ⟨h.a, h.x, h.y, h.pc, h.mem, h.rs, hq⟩

theorem store (h : LikeButP F s s') (ea : Addr) (v : Byte) : LikeButP F (s.store ea v) (s'.store ea v) :=
  ⟨h.a, h.x, h.y, h.pc, by rw [State.store_mem, State.store_mem, h.mem], h.rs, h.flag⟩

theorem fetched (h : LikeButP F s s') : LikeButP F s.fetched s'.fetched := by
  rw [State.fetched, State.fetched, h.pc]
  exact (h.setRs _).setPc _

theorem advance (h : LikeButP F s s') (n : Nat) : LikeButP F (s.advance n) (s'.advance n) := by
  rw [State.advance, State.advance, h.pc]
  exact h.setPc _

/-- `UpdateZN` writes the same Z and N, and keeps C and V (R110). -/
theorem updateZN (h : LikeButP F s s') (v : Byte) :
    LikeButP F (s.setP (updateZN v s.p)) (s'.setP (updateZN v s'.p)) := by
  refine h.setP fun f hf => ?_
  have hflag : flagOf s'.p f = flagOf s.p f := h.flag f hf
  rw [flagOf_updateZN, flagOf_updateZN, hflag]

/-! ### The handlers keep the relation -/

/-- ADC reads C and no other bit of P (R111, R112). -/
theorem adcWith (h : LikeButP F s s') (hc : F .c) (m : Byte) : LikeButP F (adcWith m s) (adcWith m s') := by
  have hcarry : flagOf s'.p .c = flagOf s.p .c := h.flag .c hc
  rw [Machine.adcWith, Machine.adcWith, State.flag, State.flag, h.a, hcarry]
  refine (h.setP fun f hf => ?_).setA _
  have hflag : flagOf s'.p f = flagOf s.p f := h.flag f hf
  rw [flagOf_adcStatus, flagOf_adcStatus, hcarry, hflag]

theorem andWith (h : LikeButP F s s') (m : Byte) : LikeButP F (andWith m s) (andWith m s') := by
  rw [Machine.andWith, Machine.andWith, h.a]
  exact (h.setA _).updateZN _

theorem ldaWith (h : LikeButP F s s') (m : Byte) : LikeButP F (ldaWith m s) (ldaWith m s') :=
  (h.setA m).updateZN m

theorem staAt (h : LikeButP F s s') (ea : Addr) : LikeButP F (staAt s ea) (staAt s' ea) := by
  rw [Machine.staAt, Machine.staAt, h.a]
  exact h.store ea _

theorem taxOf (h : LikeButP F s s') : LikeButP F (taxOf s) (taxOf s') := by
  rw [Machine.taxOf, Machine.taxOf, h.a]
  exact (h.setX _).updateZN _

theorem inxOf (h : LikeButP F s s') : LikeButP F (inxOf s) (inxOf s') := by
  rw [Machine.inxOf, Machine.inxOf, h.x]
  exact (h.setX _).updateZN _

/-- The resolver reads X, Y, PC and memory, never P (R95 to R106). -/
theorem resolve (h : LikeButP F s s') (c : Config) (m : Mode) : resolve c m s'.pc s' = resolve c m s.pc s := by
  rw [h.pc]
  cases m with
  | implied | immediate => rfl
  | zeroPage => simp only [Machine.resolve, h.load]
  | zeroPageX => simp only [Machine.resolve, eaZeroPageX, h.load, h.x]
  | zeroPageY => simp only [Machine.resolve, eaZeroPageY, h.load, h.y]
  | absolute => simp only [Machine.resolve, h.mem]
  | absoluteX => simp only [Machine.resolve, h.mem, h.x]
  | absoluteY => simp only [Machine.resolve, h.mem, h.y]
  | indirectX => simp only [Machine.resolve, eaIndirectX, h.load, h.mem, h.x]
  | indirectY => simp only [Machine.resolve, eaIndirectY, h.load, h.mem, h.y]

end LikeButP

/-- Two answers of a handler: the same fault, or related states. -/
inductive LikeAnswers (F : Flag → Prop) : Except Fault State → Except Fault State → Prop
  | error (k : Fault) : LikeAnswers F (.error k) (.error k)
  | ok {u u' : State} (h : LikeButP F u u') : LikeAnswers F (.ok u) (.ok u')

theorem LikeAnswers.map {F : Flag → Prop} (r : Except Fault Addr) {f f' : Addr → State}
    (h : ∀ ea, LikeButP F (f ea) (f' ea)) : LikeAnswers F (r.map f) (r.map f') := by
  cases r with
  | error k => exact .error k
  | ok ea => exact .ok (h ea)

theorem LikeAnswers.endWith {F : Flag → Prop} {s s' : State} {r r' : Except Fault State} (h : LikeButP F s s')
    (hr : LikeAnswers F r r') (n : Nat) : LikeButP F (endWith n s r) (endWith n s' r') := by
  cases hr with
  | error k => exact h.setRs _
  | ok hu => exact hu.advance n

namespace LikeButP

variable {F : Flag → Prop} {s s' : State}

theorem handler (h : LikeButP F s s') (c : Config) (d : Descriptor) (hc : d.mnemonic = .adc → F .c) :
    LikeAnswers F (handler c d s) (handler c d s') := by
  unfold Machine.handler
  rw [h.resolve]
  simp only [h.load]
  cases hm : d.mnemonic with
  | adc => exact .map _ fun ea => h.adcWith (hc hm) _
  | and => exact .map _ fun ea => h.andWith _
  | lda => exact .map _ fun ea => h.ldaWith _
  | sta => exact .map _ fun ea => h.staAt ea
  | tax => exact .ok h.taxOf
  | inx => exact .ok h.inxOf
  | brk => exact .ok (h.setRs _)

theorem dispatchByte (h : LikeButP F s s') (c : Config) (b : Byte)
    (hc : ∀ d, lookupOpcode c b = some d → d.mnemonic = .adc → F .c) :
    LikeButP F (dispatchByte c b s) (dispatchByte c b s') := by
  cases hd : lookupOpcode c b with
  | none =>
    rw [dispatchByte_of_no_row hd, dispatchByte_of_no_row hd]
    exact h.setRs _
  | some d =>
    rw [dispatchByte_of_row hd, dispatchByte_of_row hd]
    exact (h.handler c d (hc d hd)).endWith h _

/-- A step keeps the relation where C agrees or the fetched opcode is no ADC. -/
theorem step {t : State} (h : LikeButP F s s') (hstep : step s = .next t)
    (hc : ∀ d, lookupOpcode Config.taken (s.load s.pc) = some d → d.mnemonic = .adc → F .c) :
    ∃ t', Machine.step s' = .next t' ∧ LikeButP F t t' := by
  have hs := safe_of_step hstep
  have hs' : s'.safe := fun k hk => hs k (h.rs ▸ hk)
  rw [step_of_safe hs, loopStep_of_safe hs] at hstep
  cases hstep
  refine ⟨_, step_of_safe hs', ?_⟩
  rw [loopStep_of_safe hs', h.pc, h.load]
  exact h.fetched.dispatchByte _ _ hc

end LikeButP

/-- Settles O23: the two states agree on all four flags, C among them. -/
theorem storageBitsHaveNoEffect : Obligations.StorageBitsHaveNoEffect := by
  intro s s' t hlike hstep
  simp only [sameButStorageBits_iff] at hlike ⊢
  exact hlike.step hstep fun _ _ _ => trivial

/-- Settles O24: the relation with the flags on which `p` agrees with P, which hold C where the opcode is an ADC. -/
theorem onlyAdcReadsAFlag : Obligations.OnlyAdcReadsAFlag := by
  intro s t p hstep hp
  have hlike : LikeButP (fun f => flagOf p f = s.flag f) s { s with p := p } :=
    ⟨rfl, rfl, rfl, rfl, rfl, rfl, fun _ hf => hf⟩
  have hc : ∀ d, lookupOpcode Config.taken (s.load s.pc) = some d → d.mnemonic = .adc → flagOf p .c = s.flag .c :=
    fun d hd hadc => hp.resolve_right fun hno => hno d hd hadc
  obtain ⟨t', hstep', ht⟩ := hlike.step hstep hc
  exact ⟨t', hstep', ht.a, ht.x, ht.y, ht.pc, ht.mem, ht.rs⟩

end Sys2Proof.Machine
end

section
/-! PROOF. Word accesses and the bytes they are made of (20_memory.md R47 to R51): at an address that does not fault, the word read is
whatever two bytes stand at the address and the next one. -/

namespace Sys2Proof

/-! ### A word and its two bytes, as numbers -/

theorem lowByte_toNat (v : Addr) : (lowByte v).toNat = v.toNat % 256 := by
  simp only [lowByte, BitVec.toNat_ofNat]
  omega

theorem highByte_toNat (v : Addr) : (highByte v).toNat = v.toNat / 256 := by
  have := v.isLt
  simp only [highByte, BitVec.toNat_ofNat]
  omega

theorem wordOf_toNat (hi lo : Byte) : (wordOf hi lo).toNat = hi.toNat * 256 + lo.toNat := by
  have := hi.isLt
  have := lo.isLt
  simp only [wordOf, BitVec.toNat_ofNat]
  omega

/-- The two cells of a word are distinct, at the top of memory too. -/
theorem addr_add_one_ne (a : Addr) : a + 1 ≠ a := by bv_omega

end Sys2Proof

namespace Sys2Proof.Machine

/-! ### Word accesses at an address that does not fault -/

theorem wordFaults_eq_false {c : Config} {a : Addr} (h : ¬ (a = 0xFFFF ∧ c.wordAtTop = .fault)) : wordFaults c a = false := by
  rw [← wordFaults_iff] at h
  simpa using h

/-- The word read is the two bytes that stand at the address and the next one (R48, R50). -/
theorem Memory.readWord_of_reads {c : Config} {m : Memory} {a : Addr} {lo hi : Byte} (h : wordFaults c a = false)
    (hlo : m.read a = lo) (hhi : m.read (a + 1) = hi) : m.readWord c a = .ok (wordOf hi lo) := by
  subst hlo hhi
  simpa [h] using Memory.readWord_cases c m a

/-- A cell still reads as written after a write to the cell next to it. -/
theorem Memory.read_write_write {m : Memory} {a b : Addr} (v w : Byte) (h : a ≠ b) : ((m.write a v).write b w).read a = v := by
  rw [Memory.read_write_other _ _ h, Memory.read_write_same]

/-- Settles O7: a word write is two byte writes to distinct cells, whose bytes the word read then puts together. -/
theorem wordAccessIsLittleEndian : Obligations.WordAccessIsLittleEndian := by
  intro c m a v
  rcases Memory.writeWord_cases c m a v with ⟨hf, hw⟩ | ⟨hf, hw⟩
  · exact ⟨fun _ => ⟨by simpa [hf] using Memory.readWord_cases c m a, hw⟩, fun h => absurd ((wordFaults_iff c a).mp hf) h⟩
  · have hlo := Memory.read_write_write (m := m) (lowByte v) (highByte v) (addr_add_one_ne a).symm
    have hhi := Memory.read_write_same (m.write a (lowByte v)) (a + 1) (highByte v)
    refine ⟨fun h => by simp [(wordFaults_iff c a).mpr h] at hf, fun _ => ⟨_, hw, ?_, ?_, ?_, fun b hba hbn => ?_⟩⟩
    · rw [Memory.readWord_of_reads hf hlo hhi, wordOf_high_low]
    · rw [hlo, lowByte_toNat]
    · rw [hhi, highByte_toNat]
    · rw [Memory.read_write_other _ _ hbn, Memory.read_write_other _ _ hba]

/-- Settles O8: in either order of the two writes, both cells hold the bytes written to them. -/
theorem wordReadSeesByteWrites : Obligations.WordReadSeesByteWrites := by
  intro c m a lo hi h
  have hf := wordFaults_eq_false h
  have hne := addr_add_one_ne a
  exact ⟨wordOf hi lo,
    Memory.readWord_of_reads hf (Memory.read_write_write _ _ hne.symm) (Memory.read_write_same _ _ _),
    Memory.readWord_of_reads hf (Memory.read_write_same _ _ _) (Memory.read_write_write _ _ hne),
    wordOf_toNat hi lo⟩

end Sys2Proof.Machine
end

section
/-! PROOF. Fetch coherence (20_memory.md R58, 43_load_store.md R123): a step decodes the bytes that stand at PC now, so a store made
by the instruction before it is seen. -/

namespace Sys2Proof.Machine

/-! ### What a step is, from the bytes at PC -/

/-- The step runs what the three bytes at PC decode to, in the state after fetch (R80 to R83). -/
theorem step_of_decodeFetched {s : State} {i : Instr} (h : s.safe)
    (hi : decodeFetched (s.load s.pc) (s.load (s.pc + 1)) (s.load (s.pc + 2)) = .ok i) : step s = exec i s.fetched := by
  obtain ⟨hop, hread⟩ := decodeFetched_ok hi
  have hpc : s.fetched.pc + 1 = s.pc + 2 := by rw [State.fetched_pc, BitVec.add_assoc]; rfl
  rw [step_of_safe h, loopStep_of_safe h, ← hop, exec_eq_dispatchByte i s.fetched (by rw [hpc]; exact hread)]

/-- From a ready state, fetch moves PC and nothing else. -/
theorem State.fetched_of_ready {s : State} (h : s.rs = .ready) : s.fetched = { s with pc := s.pc + 1 } :=
  State.ext_fields rfl rfl rfl rfl rfl rfl h.symm

/-- A fetched byte with no row takes UnknownOpcode with that byte (R82, R140). -/
theorem step_of_no_row {s : State} (h : s.safe) (hrow : lookupOpcode Config.taken (s.load s.pc) = none) :
    step s = .next (s.fetched.raise (.unknownOpcode (s.load s.pc))) := by
  rw [step_of_safe h, loopStep_of_safe h, dispatchByte_of_no_row hrow]

/-- STA Absolute whose operand is not at the top of memory stores A and advances (R122, R102). -/
theorem exec_staAbs_of_pc_ne {s : State} (h : s.pc ≠ 0xFFFF) (ea : Addr) :
    exec (.staAbs ea) s = .next ((staAt s ea).advance 3) := by
  have hea : eaAbsolute Config.taken ea s = .ok ea := by
    have hf : wordFaults Config.taken s.pc = false := wordFaults_eq_false fun hf => h hf.1
    simpa [eaAbsolute, hf] using operandWord_cases Config.taken ea s
  rw [exec, execStaAbs, hea, withAddress_ok]

/-! ### What a store changes -/

theorem State.load_store_same (s : State) (ea : Addr) (v : Byte) : (s.store ea v).load ea = v :=
  Memory.read_write_same _ _ _

theorem State.load_store_other (s : State) {ea b : Addr} (v : Byte) (h : b ≠ ea) : (s.store ea v).load b = s.load b :=
  Memory.read_write_other _ _ h

/-- A step at STA Absolute whose opcode is not at `0xFFFE`: PC moves past it, A is in the cell at the operand, and every other cell
is as before (R85, R122). -/
theorem step_staAbs {s : State} {ea : Addr} (hs : s.safe) (hpc : s.pc ≠ 0xFFFE)
    (hi : decodeFetched (s.load s.pc) (s.load (s.pc + 1)) (s.load (s.pc + 2)) = .ok (.staAbs ea)) :
    ∃ t, step s = .next t ∧ t.pc = s.pc + 3 ∧ t.rs = .ready ∧ t.load ea = s.a ∧ sameMemoryBut ea s t := by
  have hfetched : s.fetched.pc ≠ 0xFFFF := by rw [State.fetched_pc]; bv_omega
  refine ⟨(staAt s.fetched ea).advance 3, ?_, ?_, rfl, State.load_store_same _ _ _, fun b hb => State.load_store_other _ _ hb⟩
  · rw [step_of_decodeFetched hs hi, exec_staAbs_of_pc_ne hfetched]
  · rw [State.advance_pc, staAt, State.store_pc, State.fetched_pc, BitVec.add_assoc]
    rfl

/-- Settles O39: the STA leaves PC at the cell it stored A into and the two cells after it as they were, so the next step decodes A
with the old operand bytes. -/
theorem storeIsSeenByTheNextFetch : Obligations.StoreIsSeenByTheNextFetch := by
  intro s ea hs hpc hdec hea
  obtain ⟨t, hstep, htpc, hrs, hstored, hkept⟩ := step_staAbs hs hpc (decode_fetched hdec)
  rw [← hea] at htpc
  have hsafe : t.safe := by intro k; simp [hrs]
  have hb1 : t.load (ea + 1) = s.load (ea + 1) := hkept _ (addr_add_one_ne ea)
  have hb2 : t.load (ea + 2) = s.load (ea + 2) := hkept _ (by bv_omega)
  refine ⟨t, hstep, htpc, fun i hi => ?_, fun hrow => ?_⟩
  · rw [step_of_decodeFetched hsafe (by rw [htpc, hstored, hb1, hb2]; exact hi), State.fetched_of_ready hrs, htpc]
  · rw [step_of_no_row hsafe (by rw [htpc, hstored]; exact hrow), State.fetched_of_ready hrs, htpc, hstored]
    rfl

end Sys2Proof.Machine
end

section
/-! PROOF. Encoding (30_encoding.md): the decoder and the encoder undo each other, the decoder takes the opcodes of the table and no
other, and decoder and table say the same of every byte. -/

namespace Sys2Proof

/-! ### The decoder undoes the encoder, and the encoder the decoder -/

/-- The instruction a shape makes of an operand field of its format (R61). -/
inductive Shape.Makes : Shape → Operand → Instr → Prop
  | f1 (i : Instr) : Makes (.f1 i) .none i
  | f2 (mk : Byte → Instr) (v : Byte) : Makes (.f2 mk) (.op8 v) (mk v)
  | f3 (mk : Addr → Instr) (ad : Addr) : Makes (.f3 mk) (.op16 ad) (mk ad)

/-- The decoder has a row for every instruction: the shape of its opcode makes it from its operand (R67). -/
theorem shapeOf_opcode (i : Instr) : ∃ sh, shapeOf i.opcode = some sh ∧ sh.Makes i.operand i := by
  cases i <;> exact ⟨_, rfl, by constructor⟩

/-- An instruction made by the shape of a byte has that byte as its opcode and the operand it was made from. -/
theorem opcode_operand_of_makes {b : Byte} {sh : Shape} {o : Operand} {i : Instr} (hs : shapeOf b = some sh)
    (hi : sh.Makes o i) : i.opcode = b ∧ i.operand = o := by
  have hfit := shapeRows_fit _ (shapeOf_mem hs)
  cases hi with
  | f1 => exact hfit
  | f2 mk v => exact hfit v
  | f3 mk ad => exact hfit ad

/-- An opcode byte and the bytes of an operand decode to what the opcode's shape makes of the operand. -/
theorem decode_of_makes {b : Byte} {sh : Shape} {o : Operand} {i : Instr} (hs : shapeOf b = some sh)
    (hi : sh.Makes o i) (rest : List Byte) : decode (b :: o.encode ++ rest) = .ok (i, rest) := by
  cases hi with
  | f1 | f2 => simp [decode, hs, Operand.encode]
  | f3 mk ad => simp [decode, hs, Operand.encode, wordOf_high_low]

/-- Bytes that decode are an opcode byte, the bytes of an operand that its shape takes, and the rest. -/
theorem decode_ok {bs rest : List Byte} {i : Instr} (h : decode bs = .ok (i, rest)) :
    ∃ b sh o, shapeOf b = some sh ∧ sh.Makes o i ∧ bs = b :: o.encode ++ rest := by
  cases bs with
  | nil => cases h
  | cons b tail =>
    cases hs : shapeOf b with
    | none => simp [decode, hs] at h
    | some sh =>
      refine ⟨b, sh, ?_⟩
      cases sh with
      | f1 j =>
        obtain ⟨rfl, rfl⟩ : j = i ∧ tail = rest := by simpa [decode, hs] using h
        exact ⟨.none, hs, .f1 j, rfl⟩
      | f2 mk =>
        match tail with
        | [] => simp [decode, hs] at h
        | b1 :: more =>
          obtain ⟨rfl, rfl⟩ : mk b1 = i ∧ more = rest := by simpa [decode, hs] using h
          exact ⟨.op8 b1, hs, .f2 mk b1, rfl⟩
      | f3 mk =>
        match tail with
        | [] | [_] => simp [decode, hs] at h
        | b1 :: b2 :: more =>
          obtain ⟨rfl, rfl⟩ : mk (wordOf b2 b1) = i ∧ more = rest := by simpa [decode, hs] using h
          exact ⟨.op16 (wordOf b2 b1), hs, .f3 mk _, by simp [Operand.encode, lowByte_wordOf, highByte_wordOf]⟩

/-- Settles O2: the shape of the opcode makes the instruction of its operand, and the decoder reads that operand. -/
theorem decodeOfEncode : Obligations.DecodeOfEncode := by
  intro i rest
  obtain ⟨sh, hs, hi⟩ := shapeOf_opcode i
  exact decode_of_makes hs hi rest

/-- Settles O3: the bytes read are an opcode and operand bytes, and the instruction made of them has that opcode and operand. -/
theorem decodedBytesAreItsEncoding : Obligations.DecodedBytesAreItsEncoding := by
  intro bs i rest h
  obtain ⟨b, sh, o, hs, hi, rfl⟩ := decode_ok h
  obtain ⟨rfl, rfl⟩ := opcode_operand_of_makes hs hi
  rfl

/-! ### What the decoder reads, and how long it is -/

/-- A byte with a shape decodes, whatever the bytes after it. -/
theorem decodeFetched_of_shapeOf {b : Byte} {sh : Shape} (h : shapeOf b = some sh) (b1 b2 : Byte) :
    ∃ i, decodeFetched b b1 b2 = .ok i := by
  unfold decodeFetched
  rw [h]
  cases sh with
  | f1 j => exact ⟨j, rfl⟩
  | f2 mk => exact ⟨mk b1, rfl⟩
  | f3 mk => exact ⟨mk (wordOf b2 b1), rfl⟩

theorem decodeFetched_of_decodeTableWord {nbits w : Nat} {i : Instr} (h : decodeTableWord nbits w = some i) :
    decodeFetched (tableByte (w % 2 ^ nbits) 0) (tableByte (w % 2 ^ nbits) 1) (tableByte (w % 2 ^ nbits) 2) = .ok i := by
  unfold decodeTableWord at h
  split at h
  case h_1 j hj => cases h; exact hj
  case h_2 => cases h

/-- An instruction is as long as its mode says; opcode `0xB1` under both its modes (R62, R70). -/
theorem Instr.length_eq_mode_bytes (c : Config) (i : Instr) : i.length = (i.mode c).bytes := by
  cases i with
  | ldaIndY zp => exact (Laws.Shape.b1_shape c zp).2.2
  | _ => rfl

end Sys2Proof

namespace Sys2Proof.Machine

/-! ### Which opcode bytes decode -/

theorem opcodesOfR67_nodup : opcodesOfR67.Nodup := by decide

/-- The bytes without a shape are the ones that R67 does not list (R68). -/
theorem shapeOf_eq_none_iff (b : Byte) : shapeOf b = none ↔ b ∉ opcodesOfR67 := by
  have hops : opcodesOfR67 = shapeRows.map Prod.fst := rfl
  rw [shapeOf, List.lookup_eq_none_iff, hops]
  simp only [bne_iff_ne, List.mem_map, not_exists, not_and, ne_eq, @eq_comm _ b]

/-- Settles O4: the bytes that have a shape, and so decode, are the opcode column of R67. -/
theorem onlyTheTableDecodes : Obligations.OnlyTheTableDecodes := by
  refine ⟨fun b b1 b2 => ?_, opcodesOfR67_nodup, rfl⟩
  split
  case isTrue hb =>
    obtain ⟨sh, hs⟩ := Option.ne_none_iff_exists'.mp fun hn => (shapeOf_eq_none_iff b).mp hn hb
    obtain ⟨i, hi⟩ := decodeFetched_of_shapeOf hs b1 b2
    exact ⟨i, hi, (decodeFetched_ok hi).1⟩
  case isFalse hb =>
    rw [decodeFetched, (shapeOf_eq_none_iff b).mpr hb]

/-! ### The opcode table, and the decoder against it -/

theorem opcodeTable_opcodes (c : Config) : (opcodeTable c).map Descriptor.opcode = opcodesOfR67 := rfl

/-- No two rows have the same opcode (R30, R72). -/
theorem opcodeTable_opcodes_nodup (c : Config) : ((opcodeTable c).map Descriptor.opcode).Nodup :=
  opcodeTable_opcodes c ▸ opcodesOfR67_nodup

/-- Every row is well formed, under both settings of the one mode that is a parameter (R5, R62, R66, R70). -/
theorem opcodeTable_wf (c : Config) : ∀ d ∈ opcodeTable c, d.wf = true := by
  rw [← List.all_eq_true]
  obtain ⟨_, _, _, b1mode, _, _, _⟩ := c
  cases b1mode with
  | indirectY => rfl
  | indirectX => rfl

/-- A lookup finds exactly the row that has the byte as its opcode (R64). -/
theorem lookupOpcode_eq_some_iff (c : Config) (b : Byte) (d : Descriptor) :
    lookupOpcode c b = some d ↔ d ∈ opcodeTable c ∧ d.opcode = b := by
  have sound : ∀ {e}, lookupOpcode c b = some e → e ∈ opcodeTable c ∧ e.opcode = b := fun he =>
    ⟨List.mem_of_find?_eq_some he, by simpa using List.find?_some he⟩
  refine ⟨sound, fun ⟨hd, hdb⟩ => ?_⟩
  have hfound : (lookupOpcode c b).isSome := List.find?_isSome.mpr ⟨d, hd, by simpa using hdb⟩
  obtain ⟨e, he⟩ := Option.isSome_iff_exists.mp hfound
  obtain ⟨hmem, heb⟩ := sound he
  rw [he, List.inj_on_of_nodup_map (opcodeTable_opcodes_nodup c) hmem hd (heb.trans hdb.symm)]

/-- Settles O5: the opcode column is R67's list of distinct bytes, so a lookup by it is a function. -/
theorem opcodeTableIsAFunction : Obligations.OpcodeTableIsAFunction := fun c =>
  ⟨rfl, List.pairwise_map.mp (opcodeTable_opcodes_nodup c), opcodeTable_wf c, lookupOpcode_eq_some_iff c⟩

/-- Settles O6: a decoded instruction has the byte as its opcode, and its descriptor is that opcode's row; a byte that is refused has
no shape and so no row. -/
theorem decoderAgreesWithTable : Obligations.DecoderAgreesWithTable := by
  intro c b b1 b2
  refine ⟨fun i hi => ⟨?_, (i.length_eq_mode_bytes c).symm⟩, fun e he => ?_⟩
  · rw [← (decodeFetched_ok hi).1, lookupOpcode_opcode]
  · exact lookupOpcode_of_shapeOf_none c (shapeOf_of_error he)

/-! ### Bytes laid out at PC are the bytes fetched there -/

/-- The next address after the `k`-th from `a` is the `k`-th from `a + 1`, modulo 65536. -/
theorem addr_add_succ (a : Addr) (k : Nat) : a + BitVec.ofNat 16 (k + 1) = a + 1 + BitVec.ofNat 16 k := by
  rw [BitVec.ofNat_add, BitVec.add_assoc, BitVec.add_comm (BitVec.ofNat 16 k)]
  rfl

/-- Bytes laid out at `a` leave every other address as it was, at the top of memory too. -/
theorem Memory.read_writeBytes_other (m : Memory) (a b : Addr) (bs : List Byte)
    (h : ∀ k < bs.length, b ≠ a + BitVec.ofNat 16 k) : (m.writeBytes a bs).read b = m.read b := by
  induction bs generalizing m a with
  | nil => rfl
  | cons x bs ih =>
    have hba : b ≠ a := by simpa using h 0 (by simp)
    rw [Memory.writeBytes, ih, Memory.read_write_other _ _ hba]
    intro k hk
    rw [← addr_add_succ]
    exact h (k + 1) (by simpa using hk)

/-- Bytes laid out at `a` read back one by one, wrapping modulo 65536 (R28, R60). -/
theorem Memory.read_writeBytes_add (m : Memory) (a : Addr) (bs : List Byte) (hlen : bs.length ≤ 65536) (k : Nat)
    (hk : k < bs.length) : (m.writeBytes a bs).read (a + BitVec.ofNat 16 k) = bs[k] := by
  induction bs generalizing m a k with
  | nil => simp at hk
  | cons x bs ih =>
    simp only [List.length_cons] at hlen hk
    cases k with
    | zero =>
      have hfresh : ∀ j < bs.length, a + BitVec.ofNat 16 0 ≠ a + 1 + BitVec.ofNat 16 j := by
        intro j hj
        bv_omega
      rw [Memory.writeBytes, Memory.read_writeBytes_other _ _ _ _ hfresh]
      simp [Memory.read_write_same]
    | succ k =>
      rw [addr_add_succ, Memory.writeBytes, ih _ _ (by omega) k (by omega), List.getElem_cons_succ]

/-- Bytes laid out at PC are the ones a fetch reads there (R81). -/
theorem State.codeByte_placeAtPc (s : State) (bs : List Byte) (hlen : bs.length ≤ 65536) (k : Nat) (hk : k < bs.length) :
    (s.placeAtPc bs).codeByte k = bs[k] :=
  Memory.read_writeBytes_add _ _ _ hlen k hk

/-- The step runs what the decoder reads at PC. -/
theorem step_of_decodeHere {s : State} {i : Instr} (h : s.safe) (hi : s.decodeHere = .ok i) : step s = exec i s.fetched :=
  step_of_decodeFetched h (by rw [← State.codeByte_zero]; exact hi)

/-! ### A placed word -/

theorem State.clearFault_safe (s : State) : s.clearFault.safe := by
  intro k
  unfold State.clearFault
  cases hr : s.rs with
  | faulted j => simp
  | ready | halted => simp [hr]

theorem State.clearFault_pc (s : State) : s.clearFault.pc = s.pc := by
  unfold State.clearFault
  cases s.rs with
  | faulted k => rfl
  | ready | halted => rfl

theorem State.withFetchWord_safe (s : State) (nbits w : Nat) : (s.withFetchWord nbits w).safe := s.clearFault_safe

theorem State.withFetchWord_pc (s : State) (nbits w : Nat) : (s.withFetchWord nbits w).pc = s.pc := s.clearFault_pc

/-- The decoder reads at PC the three bytes of the placed number (R61). -/
theorem State.decodeHere_withFetchWord (s : State) (nbits w : Nat) :
    (s.withFetchWord nbits w).decodeHere =
      decodeFetched (tableByte (w % 2 ^ nbits) 0) (tableByte (w % 2 ^ nbits) 1) (tableByte (w % 2 ^ nbits) 2) := by
  simp [State.decodeHere, State.withFetchWord, fetchWordAt, State.codeByte_placeAtPc]

/-- Settles O11: the placed word leaves a state that may step, and the bytes at its PC are the bytes `decodeTableWord` reads. -/
theorem placedTableWordIsRun : Obligations.PlacedTableWordIsRun := by
  intro s nbits w i h
  have hi := (s.decodeHere_withFetchWord nbits w).trans (decodeFetched_of_decodeTableWord h)
  rw [step_of_decodeHere (s.withFetchWord_safe nbits w) hi, ← s.withFetchWord_pc nbits w]
  rfl

/-! ### Words written out -/

/-- Settles O1: the decoder run on each of the words. -/
theorem wordsWrittenOutDecode : Obligations.WordsWrittenOutDecode :=
  ⟨rfl, rfl, rfl, rfl, rfl, rfl, rfl, rfl, rfl, rfl⟩

end Sys2Proof.Machine
end

section
/-! PROOF. The execution loop (40_execution_loop.md): the step is R80's pseudocode and runs what its bytes at PC encode, in every state
without a fault; a fault stays, a halt resumes; and `run` is the step repeated. -/

namespace Sys2Proof

/-- The converse of `decodeFetched_ok`: an opcode, and after it the bytes that spell the operand, decode to the instruction. -/
theorem decodeFetched_of_readFrom {i : Instr} {b1 b2 : Byte} (h : i.operand.readFrom b1 b2) :
    decodeFetched i.opcode b1 b2 = .ok i := by
  obtain ⟨sh, hs, hmakes⟩ := shapeOf_opcode i
  generalize i.operand = o at h hmakes
  unfold decodeFetched
  rw [hs]
  cases hmakes with
  | f1 => rfl
  | f2 mk v => cases h; rfl
  | f3 mk ad => cases h; rfl

/-- An operand is read back from the bytes that encode it (R61, R63). -/
theorem Operand.readFrom_of_encode {o : Operand} {b1 b2 : Byte} (h1 : ∀ hk : 0 < o.encode.length, b1 = o.encode[0])
    (h2 : ∀ hk : 1 < o.encode.length, b2 = o.encode[1]) : o.readFrom b1 b2 := by
  cases o with
  | none => trivial
  | op8 b => exact h1 (by simp [Operand.encode])
  | op16 a =>
    obtain rfl : b1 = lowByte a := h1 (by simp [Operand.encode])
    obtain rfl : b2 = highByte a := h2 (by simp [Operand.encode])
    exact wordOf_high_low a

theorem Operand.encode_length_le (o : Operand) : o.encode.length ≤ 2 := by
  cases o <;> simp [Operand.encode]

end Sys2Proof

namespace Sys2Proof.Machine

/-! ### A step from a state without a fault -/

theorem State.safe_of_ready {s : State} (h : s.rs = .ready) : s.safe := by
  intro k
  simp [h]

theorem State.safe_of_halted {s : State} (h : s.rs = .halted) : s.safe := by
  intro k
  simp [h]

/-- The decoder reads back an instruction laid out at PC by its encoding, at the top of memory too. -/
theorem State.decodeHere_placeAtPc_encode (s : State) (i : Instr) : (s.placeAtPc (encode i)).decodeHere = .ok i := by
  have hbyte : ∀ k (hk : k < (encode i).length), (s.placeAtPc (encode i)).codeByte k = (encode i)[k] :=
    s.codeByte_placeAtPc (encode i) (Nat.le_trans (Nat.succ_le_succ i.operand.encode_length_le) (by decide))
  have hop : (s.placeAtPc (encode i)).codeByte 0 = i.opcode := hbyte 0 (by simp [encode])
  rw [State.decodeHere, hop]
  exact decodeFetched_of_readFrom (Operand.readFrom_of_encode
    (fun hk => hbyte 1 (Nat.succ_lt_succ hk)) (fun hk => hbyte 2 (Nat.succ_lt_succ hk)))

/-- Settles O10: the bytes laid out at PC decode to the instruction, and laying them out changes neither PC nor RS. -/
theorem storedEncodingIsRun : Obligations.StoredEncodingIsRun := by
  intro i s hs
  have hplaced : (s.placeAtPc (encode i)).safe := hs
  exact step_of_decodeHere hplaced (s.decodeHere_placeAtPc_encode i)

/-- Settles O9: the decoder of the list reads what the decoder of the fetched bytes reads. -/
theorem stepRunsTheDecodedInstr : Obligations.StepRunsTheDecodedInstr := by
  intro s i rest hs hdec
  exact step_of_decodeFetched hs (decode_fetched hdec)

/-- Settles O13: the next state is the loop's. -/
theorem safeStatesStep : Obligations.SafeStatesStep := fun _ hs => ⟨_, step_of_safe hs⟩

/-- Settles O16: Ready and Halted fetch alike, and the fetch writes RS. -/
theorem haltResumesAtPc : Obligations.HaltResumesAtPc := by
  intro s hs
  have hready : { s with rs := .ready }.safe := State.safe_of_ready rfl
  have hhalted : s.safe := State.safe_of_halted hs
  rw [step_of_safe hhalted, step_of_safe hready, loopStep_of_safe hhalted, loopStep_of_safe hready]
  rfl

/-! ### A step from a faulted state -/

theorem step_of_faulted {s : State} {k : Fault} (h : s.rs = .faulted k) : step s = .fault k := by
  simp only [step, oneStep, h]

theorem loopStep_of_faulted {s : State} {k : Fault} (h : s.rs = .faulted k) (c : Config) : loopStep c s = s := by
  simp only [loopStep, h]

/-- Settles O12: a state has a fault or may step; a fault is answered again, and any other step is the loop's. -/
theorem stepRefinesTheLoop : Obligations.StepRefinesTheLoop :=
  ⟨fun _ hs => step_of_safe hs, fun _ _ hk => ⟨step_of_faulted hk, loopStep_of_faulted hk _⟩⟩

/-! ### Run -/

/-- A run goes on from a step that leaves RS Ready. -/
theorem runOp_succ_of_ready {c : Config} {s : State} (h : (loopStep c s).rs = .ready) (n : Nat) :
    runOp c (n + 1) s = runOp c n (loopStep c s) := by
  simp only [runOp, h]

/-- A run ends with a step that leaves RS Halted or Faulted, and with the result of that state (R90, R91). -/
theorem runOp_succ_of_not_ready {c : Config} {s : State} (h : (loopStep c s).rs ≠ .ready) (n : Nat) :
    runOp c (n + 1) s = some (loopStep c s, (loopStep c s).rs.result) := by
  unfold runOp
  cases hr : (loopStep c s).rs with
  | ready => exact absurd hr h
  | halted | faulted k => rfl

/-- A first step that leaves RS Ready and `n` more that do are `n + 1` steps that do. -/
theorem ready_of_ready_succ {c : Config} {s : State} {n : Nat} (h : (loopStep c s).rs = .ready)
    (hrest : ∀ j, j < n → ((loopStep c)^[j + 1] (loopStep c s)).rs = .ready) :
    ∀ j, j < n + 1 → ((loopStep c)^[j + 1] s).rs = .ready
  | 0, _ => h
  | j + 1, hj => hrest j (Nat.lt_of_succ_lt_succ hj)

/-- Settles O18, by induction on the fuel: the first step ends the run, or the rest of the run starts from it. -/
theorem runIsStepRepeated : Obligations.RunIsStepRepeated := by
  intro c n
  induction n with
  | zero => exact fun s => ⟨nofun, fun _ => nofun⟩
  | succ n ih =>
    intro s
    by_cases hr : (loopStep c s).rs = .ready
    · obtain ⟨hend, hmore⟩ := ih (loopStep c s)
      rw [runOp_succ_of_ready hr]
      refine ⟨fun t r h => ?_, fun h => ready_of_ready_succ hr (hmore h)⟩
      obtain ⟨k, hk, ht, htr, hres, hbefore⟩ := hend t r h
      exact ⟨k + 1, Nat.succ_lt_succ hk, ht, htr, hres, ready_of_ready_succ hr hbefore⟩
    · rw [runOp_succ_of_not_ready hr]
      refine ⟨fun t r h => ?_, nofun⟩
      cases h
      exact ⟨0, Nat.succ_pos n, rfl, hr, rfl, nofun⟩

/-- Settles O15: a step of the loop leaves a faulted block as it is, so a run ends with it at once; `reset` writes RS. -/
theorem faultStaysUntilReset : Obligations.FaultStaysUntilReset := by
  intro c s k n hc hk
  have hloop : loopStep c s = s := loopStep_of_faulted hk c
  have hresult : s.rs.result = .err k := by rw [hk]; rfl
  refine ⟨step_of_faulted hk, ?_, ?_, _, resetBlock_wf s hc, rfl⟩
  · rw [stepOp, hloop, hresult]
  · rw [runOp_succ_of_not_ready (by simp [hloop, hk]), hloop, hresult]

end Sys2Proof.Machine
end

section
/-! PROOF. What a step leaves (40_execution_loop.md R85 to R87, 60_exceptions.md R140 to R146): the only two faults it takes, with where
they stand, or a handler run and PC moved over the row's length; and from it the invariant. -/

namespace Sys2Proof

/-- An addressed mnemonic never has the Implied mode (R66). -/
theorem mode_ne_implied_of_addressed {n : Mnemonic} {m : Mode} (h : formInScope n m = true) (hn : n.addressed = true) :
    m ≠ .implied := by
  rintro rfl
  simp [formInScope, hn] at h

theorem Mode.bytes_pos (m : Mode) : 0 < m.bytes := by
  cases m <;> decide

end Sys2Proof

namespace Sys2Proof.Machine

/-! ### The faults of a step -/

/-- A row found is a form in scope, as long as its mode says (R5, R62). -/
theorem lookupOpcode_wf {c : Config} {b : Byte} {d : Descriptor} (h : lookupOpcode c b = some d) :
    formInScope d.mnemonic d.mode = true ∧ d.bytes = d.mode.bytes := by
  have hwf := opcodeTable_wf c d ((lookupOpcode_eq_some_iff c b d).mp h).1
  simpa [Descriptor.wf] using hwf

theorem readWord_map_error {c : Config} {m : Memory} {a : Addr} {f : Addr → Addr} {k : Fault}
    (h : (m.readWord c a).map f = .error k) : wordFaults c a = true ∧ k = .memoryAddressOutOfRange := by
  rcases Memory.readWord_cases c m a with ⟨hf, hr⟩ | ⟨-, hr⟩
  · rw [hr] at h
    cases h
    exact ⟨hf, rfl⟩
  · rw [hr] at h
    cases h

/-- The resolver's only faults: Implied, or the word operand of an absolute mode (R96, R102). -/
theorem resolve_error {c : Config} {m : Mode} {pc : Addr} {s : State} {k : Fault} (h : resolve c m pc s = .error k) :
    (m = .implied ∧ k = .invalidAddressingMode) ∨
      (m.bytes = 3 ∧ wordFaults c pc = true ∧ k = .memoryAddressOutOfRange) := by
  cases m with
  | implied => cases h; exact .inl ⟨rfl, rfl⟩
  | immediate | zeroPage | zeroPageX | zeroPageY | indirectX | indirectY => cases h
  | absolute =>
    have hmap : (s.mem.readWord c pc).map id = .error k := by rw [Except.map_id]; exact h
    exact .inr ⟨rfl, readWord_map_error hmap⟩
  | absoluteX | absoluteY => exact .inr ⟨rfl, readWord_map_error h⟩

/-- A handler's fault is the resolver's, and only an addressed mnemonic has one (R66, R87). -/
theorem handler_error {c : Config} {d : Descriptor} {s : State} {k : Fault} (h : handler c d s = .error k) :
    d.mnemonic.addressed = true ∧ resolve c d.mode s.pc s = .error k := by
  constructor
  · rcases handler_runs c d s with ⟨-, -, haddr⟩ | ⟨u, hu, -⟩
    · exact haddr
    · cases h.symm.trans hu
  · rcases handler_cases c d s with ⟨k', hk', hr⟩ | ⟨u, hu, -⟩
    · cases h.symm.trans hk'
      exact hr
    · cases h.symm.trans hu

/-- What dispatch can leave: UnknownOpcode, MemoryAddressOutOfRange of a word operand, or the handler run and PC moved on. -/
theorem dispatchByte_cases (c : Config) (b : Byte) (s : State) :
    (lookupOpcode c b = none ∧ dispatchByte c b s = s.raise (.unknownOpcode b)) ∨
    (∃ d, lookupOpcode c b = some d ∧ d.bytes = 3 ∧ wordFaults c s.pc = true ∧
      dispatchByte c b s = s.raise .memoryAddressOutOfRange) ∨
    ∃ d u, lookupOpcode c b = some d ∧ HandlerRuns s d.mnemonic u ∧ dispatchByte c b s = u.advance d.bytes := by
  cases hd : lookupOpcode c b with
  | none => exact .inl ⟨rfl, dispatchByte_of_no_row hd s⟩
  | some d =>
    rw [dispatchByte_of_row hd]
    rcases handler_runs c d s with ⟨k, hk, -⟩ | ⟨u, hu, hruns⟩
    · obtain ⟨haddr, hresolve⟩ := handler_error hk
      obtain ⟨hscope, hbytes⟩ := lookupOpcode_wf hd
      have hmode : d.mode ≠ .implied := mode_ne_implied_of_addressed hscope haddr
      obtain ⟨hword, htop, rfl⟩ := (resolve_error hresolve).resolve_left fun himplied => hmode himplied.1
      exact .inr (.inl ⟨d, rfl, hbytes.trans hword, htop, by rw [hk]; rfl⟩)
    · exact .inr (.inr ⟨d, u, rfl, hruns, by rw [hu]; rfl⟩)

/-- `step_cases` with the faults named: UnknownOpcode where the fetched byte has no row (R140), MemoryAddressOutOfRange where it has a
16-bit operand and stands at `0xFFFE` (R142). -/
theorem step_cases_faults {s t : State} (h : step s = .next t) :
    (lookupOpcode Config.taken (s.load s.pc) = none ∧ t = s.fetched.raise (.unknownOpcode (s.load s.pc))) ∨
    (hasWordOperand (s.load s.pc) ∧ s.pc = 0xFFFE ∧ t = s.fetched.raise .memoryAddressOutOfRange) ∨
    ∃ d u, lookupOpcode Config.taken (s.load s.pc) = some d ∧ HandlerRuns s.fetched d.mnemonic u ∧
      t = u.advance d.bytes := by
  have hsafe := safe_of_step h
  rw [step_of_safe hsafe, loopStep_of_safe hsafe] at h
  cases h
  rcases dispatchByte_cases Config.taken (s.load s.pc) s.fetched with hunknown | ⟨d, hd, hbytes, htop, ht⟩ | hruns
  · exact .inl hunknown
  · have hpc : s.pc + 1 = 0xFFFF := ((wordFaults_iff _ _).mp htop).1
    exact .inr (.inl ⟨⟨d, hd, hbytes⟩, by bv_omega, ht⟩)
  · exact .inr (.inr hruns)

/-! ### What a handler does to PC, RS and the form of memory -/

theorem HandlerRuns.pc_eq {s u : State} {n : Mnemonic} (h : HandlerRuns s n u) : u.pc = s.pc := by
  cases h <;> rfl

/-- RS is kept, or the handler is BRK's (R86). -/
theorem HandlerRuns.rs_cases {s u : State} {n : Mnemonic} (h : HandlerRuns s n u) :
    u.rs = s.rs ∨ n = .brk ∧ u = brkOf s := by
  cases h with
  | brk => exact .inr ⟨rfl, rfl⟩
  | adc | and | lda | sta | tax | inx => exact .inl rfl

theorem HandlerRuns.safe {s u : State} {n : Mnemonic} (h : HandlerRuns s n u) (hs : s.safe) : u.safe := by
  rcases h.rs_cases with hrs | ⟨-, rfl⟩
  · rw [State.safe, hrs]
    exact hs
  · exact State.safe_of_halted rfl

/-- Memory stays canonical: STA writes one cell, and the others none. -/
theorem HandlerRuns.mem_wf {s u : State} {n : Mnemonic} (h : HandlerRuns s n u) (hs : s.mem.wf = true) : u.mem.wf = true := by
  cases h with
  | sta ea => exact Memory.wf_write hs ea s.a
  | adc | and | lda | tax | inx | brk => exact hs

/-! ### PC and the run state after a step -/

/-- Fetch moves PC by one and the advance by the rest of the row's length, which is at least one (R81, R85). -/
theorem pc_fetched_advance (s : State) {n : Nat} (hn : 0 < n) :
    (s.pc + 1 + BitVec.ofNat 16 (n - 1)).toNat = (s.pc.toNat + n) % 65536 := by
  rw [← addr_add_succ, Nat.sub_add_cancel hn, BitVec.toNat_add, BitVec.toNat_ofNat, Nat.add_mod_mod]

/-- Settles O17: a step that takes a fault changes PC and RS only, and a handler that runs leaves no fault and keeps PC. -/
theorem pcAfterAStep : Obligations.PcAfterAStep := by
  intro s t h
  rcases step_cases h with ⟨k, rfl, -⟩ | ⟨d, u, hd, hu, rfl⟩
  · exact ⟨fun hsafe => absurd rfl (hsafe k), fun _ => ⟨rfl, rfl, rfl, rfl, rfl, fun _ => rfl⟩⟩
  · have hsafe : (u.advance d.bytes).safe := hu.safe (State.safe_of_ready rfl)
    have hbytes : 0 < d.bytes := (lookupOpcode_wf hd).2 ▸ d.mode.bytes_pos
    refine ⟨fun _ => ⟨d, hd, ?_⟩, fun hfault => absurd hsafe hfault⟩
    rw [State.advance_pc, hu.pc_eq, State.fetched_pc, pc_fetched_advance s hbytes]

/-- A run state Ready asks nothing of the code. -/
theorem State.runStateFits_of_ready {s : State} (h : s.rs = .ready) : s.runStateFits := by
  simp [State.runStateFits, h]

/-- The fetched byte stands just before the PC that fetch leaves. -/
theorem load_before_fetched (s : State) : s.load (s.pc + 1 - 1) = s.load s.pc := by
  rw [BitVec.add_sub_cancel]

/-- BRK's step halts just after its one byte (R86, R130). -/
theorem runStateFits_of_brk {s : State} {d : Descriptor} (hd : lookupOpcode Config.taken (s.load s.pc) = some d)
    (hbrk : d.mnemonic = .brk) : ((brkOf s.fetched).advance d.bytes).runStateFits := by
  have hzero : s.load s.pc = 0x00 := (lookupOpcode_brk hd).mp hbrk
  have hbytes : d.bytes = 1 := by
    rw [hzero] at hd
    cases hd.symm.trans (lookupOpcode_opcode Config.taken .brk)
    rfl
  have hpc : ((brkOf s.fetched).advance d.bytes).pc = s.pc + 1 := by
    rw [State.advance_pc, hbytes]
    exact BitVec.add_zero _
  show s.load (((brkOf s.fetched).advance d.bytes).pc - 1) = 0x00
  rw [hpc, load_before_fetched, hzero]

/-- Settles O20: of the ends of a step only STA's writes memory, one cell; a fault stands where `step_cases_faults` says, and of the
handlers only BRK's writes RS. -/
theorem stepKeepsInv : Obligations.StepKeepsInv := by
  rintro s t ⟨hwf, -⟩ h
  rcases step_cases_faults h with ⟨hrow, rfl⟩ | ⟨hword, hpc, rfl⟩ | ⟨d, u, hd, hu, rfl⟩
  · exact ⟨hwf, load_before_fetched s, hrow⟩
  · have htop : s.pc + 1 = 0xFFFF := by rw [hpc]; rfl
    rw [hpc] at hword
    exact ⟨hwf, htop, hword⟩
  · refine ⟨hu.mem_wf hwf, ?_⟩
    rcases hu.rs_cases with hrs | ⟨hbrk, rfl⟩
    · exact State.runStateFits_of_ready hrs
    · exact runStateFits_of_brk hd hbrk

end Sys2Proof.Machine
end

section
/-! PROOF. The resolver (41_addressing.md): the effective address of every mode as a number, the two faults it can raise, and that a
step never resolves Implied. -/

namespace Sys2Proof.Machine

/-! ### Indexing, as numbers -/

/-- An index added after the address is formed carries into the high byte (R103, R104, R106). -/
theorem add_zext16_toNat (v : Addr) (b : Byte) : (v + zext16 b).toNat = (v.toNat + b.toNat) % 65536 := by
  rw [BitVec.toNat_add, zext16_toNat]

/-- An index added to the operand byte wraps in page 0 (R100, R101). -/
theorem zext16_add_toNat (a b : Byte) : (zext16 (a + b)).toNat = (a.toNat + b.toNat) % 256 := by
  rw [zext16_toNat, BitVec.toNat_add]

theorem zext16_toNat_le (b : Byte) : (zext16 b).toNat ≤ 0x00FF := by
  rw [zext16_toNat]
  exact Nat.le_of_lt_succ b.isLt

/-! ### Absolute modes -/

/-- Every mode with a 16-bit operand faults where the word read does (R102). -/
theorem resolve_of_wordFaults {c : Config} {m : Mode} {pc : Addr} (hm : m.bytes = 3) (h : wordFaults c pc = true) (s : State) :
    resolve c m pc s = .error .memoryAddressOutOfRange := by
  have hread : s.mem.readWord c pc = .error .memoryAddressOutOfRange := by simpa [h] using Memory.readWord_cases c s.mem pc
  cases m with
  | implied | immediate | zeroPage | zeroPageX | zeroPageY | indirectX | indirectY => cases hm
  | absolute => exact hread
  | absoluteX | absoluteY =>
    rw [resolve, hread]
    rfl

/-- Settles O30: the word read answers the two bytes at pc as one number, to which the index is added, or its fault. -/
theorem absoluteModes : Obligations.AbsoluteModes := by
  rintro c pc s base rfl
  refine ⟨fun h => ?_, fun h => ?_⟩
  · have hread : s.mem.readWord c pc = .ok (wordOf (s.load (pc + 1)) (s.load pc)) :=
      Memory.readWord_of_reads (wordFaults_eq_false h) rfl rfl
    refine ⟨⟨_, hread, wordOf_toNat _ _⟩, ⟨_, by rw [resolve, hread]; rfl, ?_⟩, ⟨_, by rw [resolve, hread]; rfl, ?_⟩⟩
    · rw [add_zext16_toNat, wordOf_toNat]
    · rw [add_zext16_toNat, wordOf_toNat]
  · have hfault : wordFaults c pc = true := (wordFaults_iff c pc).mpr h
    exact ⟨resolve_of_wordFaults rfl hfault s, resolve_of_wordFaults rfl hfault s, resolve_of_wordFaults rfl hfault s⟩

/-! ### Faults -/

/-- Settles O31: `resolve_error` names the faults, and each of the two is raised where it says. -/
theorem resolverFaults : Obligations.ResolverFaults := by
  intro c m pc s k
  constructor
  · intro h
    rcases resolve_error h with himplied | ⟨hbytes, hfault, hk⟩
    · exact .inl himplied
    · obtain ⟨hpc, htop⟩ := (wordFaults_iff c pc).mp hfault
      exact .inr ⟨hbytes, hpc, htop, hk⟩
  · rintro (⟨rfl, rfl⟩ | ⟨hbytes, hpc, htop, rfl⟩)
    · rfl
    · exact resolve_of_wordFaults hbytes ((wordFaults_iff c pc).mpr ⟨hpc, htop⟩) s

/-- A row of the table is a form in scope (R5). -/
theorem formInScope_of_mem_opcodeTable {c : Config} {d : Descriptor} (h : d ∈ opcodeTable c) :
    formInScope d.mnemonic d.mode = true := by
  have hwf := opcodeTable_wf c d h
  rw [Descriptor.wf, Bool.and_eq_true] at hwf
  exact hwf.1

/-- Settles O32: a dispatch that faults raises UnknownOpcode or MemoryAddressOutOfRange, and one that runs its handler leaves no
fault. -/
theorem invalidAddressingModeIsUnreachable : Obligations.InvalidAddressingModeIsUnreachable := by
  refine ⟨fun _ _ _ => rfl, fun c d hd => mode_ne_implied_of_addressed (formInScope_of_mem_opcodeTable hd), fun c s hs => ?_⟩
  rw [loopStep_of_safe hs]
  rcases dispatchByte_cases c (s.load s.pc) s.fetched with ⟨-, ht⟩ | ⟨-, -, -, -, ht⟩ | ⟨d, u, -, hu, ht⟩
  · rw [ht, State.raise_rs]
    exact nofun
  · rw [ht, State.raise_rs]
    exact nofun
  · have husafe : u.safe := hu.safe (State.safe_of_ready rfl)
    rw [ht, State.advance_rs]
    exact husafe .invalidAddressingMode

/-! ### Zero-page modes -/

/-- No form in scope has ZeroPageY (R101). -/
theorem mode_ne_zeroPageY_of_formInScope {n : Mnemonic} {m : Mode} (h : formInScope n m = true) : m ≠ .zeroPageY := by
  rintro rfl
  simp [formInScope] at h

/-- Settles O27: each of the three addresses is one byte, zero-extended. -/
theorem zeroPageModesStayInPageZero : Obligations.ZeroPageModesStayInPageZero := fun _ _ _ =>
  ⟨⟨_, rfl, zext16_toNat _, zext16_toNat_le _⟩, ⟨_, rfl, zext16_add_toNat _ _, zext16_toNat_le _⟩,
    ⟨_, rfl, zext16_add_toNat _ _, zext16_toNat_le _⟩,
    fun _ hd => mode_ne_zeroPageY_of_formInScope (formInScope_of_mem_opcodeTable hd)⟩

/-! ### The zero-page pointer -/

theorem zpPtr_page0 {c : Config} (h : c.zpPtrWrap = .page0) (m : Memory) (p : Byte) :
    zpPtr c m p = wordOf (m.read (zext16 (p + 1))) (m.read (zext16 p)) := by
  rw [zpPtr, h]

theorem zpPtr_linear {c : Config} (h : c.zpPtrWrap = .linear) (m : Memory) (p : Byte) :
    zpPtr c m p = wordOf (m.read (zext16 p + 1)) (m.read (zext16 p)) := by
  rw [zpPtr, h]

/-- The next cell of page 0 is the next cell of memory, but after the last one of the page. -/
theorem zext16_add_one {p : Byte} (h : p ≠ 0xFF) : zext16 (p + 1) = zext16 p + 1 := by
  apply BitVec.eq_of_toNat_eq
  rw [zext16_add_toNat, BitVec.toNat_add, zext16_toNat]
  show (p.toNat + 1) % 256 = (p.toNat + 1) % 65536
  bv_omega

/-- Settles O28: the two settings read the same low byte, and the same cell for the high byte where adding 1 does not wrap. -/
theorem zeroPagePointerRead : Obligations.ZeroPagePointerRead := by
  intro c m p
  refine ⟨fun h => ?_, fun h => ?_, fun hp => ?_⟩
  · have hnext : zext16 (p + 1) = BitVec.ofNat 16 ((p.toNat + 1) % 256) := by rw [zext16, BitVec.toNat_add]; rfl
    rw [zpPtr_page0 h, wordOf_toNat, hnext, zext16]
  · have hnext : zext16 p + 1 = BitVec.ofNat 16 (p.toNat + 1) := (BitVec.ofNat_add _ _).symm
    rw [zpPtr_linear h, wordOf_toNat, hnext, zext16]
  · rw [zpPtr_page0 rfl, zpPtr_linear rfl, zext16_add_one hp]

/-! ### Indirect modes -/

/-- Settles O29: the sum that IndirectX reads the pointer at is a byte's; the sum IndirectY makes of what it read is an address's. -/
theorem indirectModes : Obligations.IndirectModes := by
  intro c pc s
  refine ⟨?_, _, rfl, add_zext16_toNat _ _⟩
  have hptr : s.load pc + s.x = BitVec.ofNat 8 (((s.load pc).toNat + s.x.toNat) % 256) := by
    rw [← BitVec.toNat_add, BitVec.ofNat_toNat, BitVec.setWidth_eq]
  rw [← hptr]
  rfl

end Sys2Proof.Machine
end

section
/-! PROOF. The ALU (42_alu.md): the flags UpdateZN writes, ADC by its exact unsigned and signed sums, AND, and the form every
instruction that reads a byte at an effective address shares (41_addressing.md R98 to R106, 40_execution_loop.md R85, R87). -/

namespace Sys2Proof.Machine

/-! ### UpdateZN -/

theorem byte_bit7_iff (v : Byte) : v.getLsbD 7 = true ↔ v.toNat ≥ 128 := by
  rw [← BitVec.msb_eq_getLsbD_last, BitVec.msb_eq_decide, decide_eq_true_iff]

theorem flagOf_updateZN_z_iff (v p : Byte) : flagOf (updateZN v p) .z = true ↔ v.toNat = 0 := by
  rw [flagOf_updateZN]
  simp [BitVec.toNat_eq]

theorem flagOf_updateZN_n_iff (v p : Byte) : flagOf (updateZN v p) .n = true ↔ v.toNat ≥ 128 := by
  rw [flagOf_updateZN, if_pos rfl, byte_bit7_iff]

/-- Settles O33: Z and N are the last two bits written, bits 1 and 7; past bit 7 both bytes read 0. -/
theorem updateZnWritesTwoBits : Obligations.UpdateZnWritesTwoBits := by
  refine fun v p => ⟨flagOf_updateZN_z_iff v p, flagOf_updateZN_n_iff v p, fun i h1 h7 => ?_⟩
  by_cases hi : i < 8
  · rw [getLsbD_updateZN _ _ _ hi, if_neg h7, if_neg h1]
  · rw [BitVec.getLsbD_of_ge _ _ (by omega), BitVec.getLsbD_of_ge _ _ (by omega)]

theorem znFrom_of_updateZN {v p : Byte} {t : State} (h : t.p = updateZN v p) : znFrom v t := by
  rw [znFrom, State.flag, State.flag, h]
  exact ⟨flagOf_updateZN_z_iff v p, flagOf_updateZN_n_iff v p⟩

/-! ### The sums of ADC -/

theorem State.carryIn_eq (s : State) : s.carryIn = (s.flag .c).toNat := by
  cases h : s.flag .c <;> simp [State.carryIn, h]

theorem adcResult_toNat (a m : Byte) (cin : Bool) : (adcResult a m cin).toNat = (a.toNat + m.toNat + cin.toNat) % 256 :=
  BitVec.toNat_ofNat _ _

theorem adcCarry_iff (a m : Byte) (cin : Bool) : adcCarry a m cin = true ↔ a.toNat + m.toNat + cin.toNat ≥ 256 :=
  decide_eq_true_iff

/-- The mask `0x80` of R112 keeps the sign bits: V is set when the result's sign differs from both operands'. -/
theorem adcOverflow_iff_signs (a m : Byte) (cin : Bool) :
    adcOverflow a m cin = true ↔ a.msb ≠ (adcResult a m cin).msb ∧ m.msb ≠ (adcResult a m cin).msb := by
  have hmask (x : Byte) : (x &&& 0x80#8 != 0#8) = x.msb := by
    rw [show 0x80#8 = BitVec.twoPow 8 7 from rfl, BitVec.and_twoPow, BitVec.msb_eq_getLsbD_last]
    cases x.getLsbD 7 <;> rfl
  rw [adcOverflow, hmask, BitVec.msb_and, BitVec.msb_xor, BitVec.msb_xor, Bool.and_eq_true, bne_iff_ne, bne_iff_ne]

/-- V is set exactly when the signed sum is out of a byte's range (R112, R113). -/
theorem adcOverflow_iff (a m : Byte) (cin : Bool) :
    adcOverflow a m cin = true ↔ a.toInt + m.toInt + cin.toNat < -128 ∨ a.toInt + m.toInt + cin.toNat > 127 := by
  have hr := adcResult_toNat a m cin
  have hc := cin.toNat_le
  have ha := a.isLt
  have hm := m.isLt
  rw [adcOverflow_iff_signs, BitVec.toInt_eq_msb_cond, BitVec.toInt_eq_msb_cond]
  simp only [BitVec.msb_eq_decide, decide_eq_true_iff, ne_eq, decide_eq_decide, hr]
  omega

/-! ### The handlers, then the advance -/

/-- The advance moves PC over the operand bytes (R85). -/
theorem movedOn_advance {s u : State} (h : u.pc = s.pc) (n : Nat) : movedOn n s (u.advance (n + 1)) := by
  rw [movedOn, State.advance_pc, h, BitVec.toNat_add, BitVec.toNat_ofNat, Nat.add_mod_mod, Nat.add_sub_cancel]

theorem adcWith_adcEffect (m : Byte) (n : Nat) (s : State) : adcEffect m n s ((adcWith m s).advance (n + 1)) := by
  have hflag (f : Flag) : ((adcWith m s).advance (n + 1)).flag f = flagOf (adcStatus s.a m s.p) f := rfl
  refine ⟨?_, ?_, ?_, znFrom_of_updateZN rfl, (HandlerRuns.adc m).sameStorageBits, rfl, rfl, rfl, fun _ => rfl,
    movedOn_advance rfl n⟩
  · rw [State.carryIn_eq]
    exact adcResult_toNat _ _ _
  · rw [hflag, flagOf_adcStatus, State.carryIn_eq]
    exact adcCarry_iff _ _ _
  · rw [hflag, flagOf_adcStatus, State.carryIn_eq]
    exact adcOverflow_iff _ _ _

/-- LDA's handler, run on any byte `v`, has the whole effect of a write of `v` to A (R114, R120). -/
theorem ldaWith_writesA (v : Byte) (n : Nat) (s : State) : writesA v n s ((ldaWith v s).advance (n + 1)) :=
  ⟨rfl, znFrom_of_updateZN rfl, (HandlerRuns.lda v).sameCV nofun, (HandlerRuns.lda v).sameStorageBits, rfl, rfl, rfl,
    fun _ => rfl, movedOn_advance rfl n⟩

/-- AND is LDA of the masked byte. -/
theorem andWith_eq_ldaWith (m : Byte) (s : State) : andWith m s = ldaWith (s.a &&& m) s := rfl

theorem andWith_writesA (m : Byte) (n : Nat) (s : State) : writesA (s.a &&& m) n s ((andWith m s).advance (n + 1)) := by
  rw [andWith_eq_ldaWith]
  exact ldaWith_writesA _ _ _

/-! ### Absolute operands -/

/-- Where the operand word is fetched without a fault, each absolute mode answers its address (R102 to R104). -/
theorem eaAbsolutes_of_not_wordFaults {c : Config} {s : State} (h : wordFaults c s.pc = false) (ad : Addr) :
    eaAbsolute c ad s = .ok ad ∧ eaAbsoluteX c ad s = .ok (ad + zext16 s.x) ∧ eaAbsoluteY c ad s = .ok (ad + zext16 s.y) :=
  ⟨by simpa [eaAbsolute, h] using operandWord_cases c ad s, by simpa [h] using eaAbsoluteX_cases c ad s,
    by simpa [h] using eaAbsoluteY_cases c ad s⟩

/-- Where that fetch faults, each absolute mode answers its fault (R102 to R104). -/
theorem eaAbsolutes_of_wordFaults {c : Config} {s : State} (h : wordFaults c s.pc = true) (ad : Addr) :
    eaAbsolute c ad s = .error .memoryAddressOutOfRange ∧ eaAbsoluteX c ad s = .error .memoryAddressOutOfRange ∧
      eaAbsoluteY c ad s = .error .memoryAddressOutOfRange :=
  ⟨by simpa [eaAbsolute, h] using operandWord_cases c ad s, by simpa [h] using eaAbsoluteX_cases c ad s,
    by simpa [h] using eaAbsoluteY_cases c ad s⟩

section
/-! The three absolute forms of one mnemonic, whose handler is `f`. -/

variable {s : State} {ad : Addr} {f : Addr → State} {iAbs iAbsX iAbsY : Instr}
  (hAbs : exec iAbs s = withAddress 3 (eaAbsolute Config.taken ad s) s f)
  (hAbsX : exec iAbsX s = withAddress 3 (eaAbsoluteX Config.taken ad s) s f)
  (hAbsY : exec iAbsY s = withAddress 3 (eaAbsoluteY Config.taken ad s) s f)
include hAbs hAbsX hAbsY

theorem absoluteForms_run (P : Addr → State → Prop) (hP : ∀ ea, P ea ((f ea).advance 3)) (hpc : s.pc ≠ 0xFFFF) :
    runsTo iAbs s (P ad) ∧ runsTo iAbsX s (P (ad + zext16 s.x)) ∧ runsTo iAbsY s (P (ad + zext16 s.y)) := by
  have hok : wordFaults Config.taken s.pc = false := wordFaults_eq_false fun h => hpc h.1
  obtain ⟨hea, heaX, heaY⟩ := eaAbsolutes_of_not_wordFaults hok ad
  rw [hea] at hAbs
  rw [heaX] at hAbsX
  rw [heaY] at hAbsY
  exact ⟨⟨_, hAbs, hP _⟩, ⟨_, hAbsX, hP _⟩, ⟨_, hAbsY, hP _⟩⟩

theorem absoluteForms_fault (htop : Config.taken.wordAtTop = .fault) (hpc : s.pc = 0xFFFF) :
    takesFault iAbs s .memoryAddressOutOfRange ∧ takesFault iAbsX s .memoryAddressOutOfRange ∧
      takesFault iAbsY s .memoryAddressOutOfRange := by
  obtain ⟨hea, heaX, heaY⟩ := eaAbsolutes_of_wordFaults ((wordFaults_iff _ _).mpr ⟨hpc, htop⟩) ad
  rw [hea] at hAbs
  rw [heaX] at hAbsX
  rw [heaY] at hAbsY
  exact ⟨hAbs, hAbsX, hAbsY⟩

end

/-- The encoding of a form with a 16-bit operand has its low byte first (R61, R63). -/
theorem encode_of_op16 {i : Instr} {lo hi : Byte} (h : i.operand = .op16 (wordOf hi lo)) : encode i = [i.opcode, lo, hi] := by
  rw [encode, h, Operand.encode, lowByte_wordOf, highByte_wordOf]

/-! ### The obligations -/

/-- Settles O34: each form runs `adcWith` on the byte at its address, or its absolute operand faults. -/
theorem adcAddsWithCarry : Obligations.AdcAddsWithCarry := by
  refine ⟨fun b s => ?_, fun ad s hpc => ?_, fun ad s htop hpc => absoluteForms_fault rfl rfl rfl htop hpc,
    fun _ => ⟨rfl, rfl, rfl, rfl, rfl⟩, fun _ _ => ⟨encode_of_op16 rfl, encode_of_op16 rfl, encode_of_op16 rfl⟩⟩
  · have hrun (m : Byte) : adcEffect m 1 s ((adcWith m s).advance 2) := adcWith_adcEffect m 1 s
    exact ⟨⟨_, rfl, hrun _⟩, ⟨_, rfl, hrun _⟩, ⟨_, rfl, hrun _⟩, ⟨_, rfl, hrun _⟩, ⟨_, rfl, hrun _⟩⟩
  · exact absoluteForms_run rfl rfl rfl (fun ea => adcEffect (s.load ea) 2 s) (fun _ => adcWith_adcEffect _ 2 s) hpc

/-- Settles O35: each form runs `andWith` on the byte at its address, or its absolute operand faults. -/
theorem andMasksTheAccumulator : Obligations.AndMasksTheAccumulator := by
  refine ⟨fun b s => ?_, fun ad s hpc => ?_, fun ad s htop hpc => absoluteForms_fault rfl rfl rfl htop hpc,
    fun _ => ⟨rfl, rfl, rfl, rfl, rfl⟩, fun _ _ => ⟨encode_of_op16 rfl, encode_of_op16 rfl, encode_of_op16 rfl⟩⟩
  · have hrun (m : Byte) : writesA (s.a &&& m) 1 s ((andWith m s).advance 2) := andWith_writesA m 1 s
    exact ⟨⟨_, rfl, hrun _⟩, ⟨_, rfl, hrun _⟩, ⟨_, rfl, hrun _⟩, ⟨_, rfl, hrun _⟩, ⟨_, rfl, hrun _⟩⟩
  · exact absoluteForms_run rfl rfl rfl (fun ea => writesA (s.a &&& s.load ea) 2 s) (fun _ => andWith_writesA _ 2 s) hpc

end Sys2Proof.Machine
end

section
/-! PROOF. Load and store (43_load_store.md): LDA and STA as a handler run at an effective address, and opcode `0xB1`, whose mode is
a parameter. -/

namespace Sys2Proof.Machine

/-! ### Opcode `0xB1` -/

/-- Both modes that `0xB1` can have take one operand byte (R62, R70). -/
theorem B1Mode.mode_bytes (m : B1Mode) : m.mode.bytes = 2 := by
  cases m <;> rfl

/-- `0xB1` is LDA of the byte at the address that its mode resolves to, two bytes long (R70, R121). -/
theorem dispatchByte_b1 {c : Config} {s : State} {ea : Addr} (h : resolve c c.ldaB1Mode.mode s.pc s = .ok ea) :
    dispatchByte c 0xB1 s = (ldaWith (s.load ea) s).advance 2 := by
  have hrow : lookupOpcode c 0xB1 = some (tableRow c 0xB1 .lda c.ldaB1Mode.mode) := lookupOpcode_opcode c (.ldaIndY 0)
  have hrun : handler c (tableRow c 0xB1 .lda c.ldaB1Mode.mode) s = .ok (ldaWith (s.load ea) s) := by
    simp only [handler, tableRow, h, Except.map]
  rw [dispatchByte_of_row hrow, hrun, tableRow, B1Mode.mode_bytes, endWith]

/-! ### STA's handler, then the advance -/

theorem staAt_storesA (ea : Addr) (n : Nat) (s : State) : storesA ea n s ((staAt s ea).advance (n + 1)) :=
  ⟨State.load_store_same _ _ _, fun _ hb => State.load_store_other _ _ hb, rfl, rfl, rfl, rfl, rfl, movedOn_advance rfl n⟩

/-- Where PC is not at the top of memory, each absolute mode answers its address (R102 to R104). -/
theorem eaAbsolutes_of_pc_ne {s : State} (h : s.pc ≠ 0xFFFF) (c : Config) (ad : Addr) :
    eaAbsolute c ad s = .ok ad ∧ eaAbsoluteX c ad s = .ok (ad + zext16 s.x) ∧ eaAbsoluteY c ad s = .ok (ad + zext16 s.y) :=
  eaAbsolutes_of_not_wordFaults (wordFaults_eq_false fun hfault => h hfault.1) ad

/-! ### The obligations -/

/-- Settles O36: each form runs `ldaWith` on the byte at its address, or its absolute operand faults. -/
theorem ldaLoadsTheAccumulator : Obligations.LdaLoadsTheAccumulator := by
  refine ⟨fun b s => ?_, fun ad s hpc => ?_, fun ad s htop hpc => absoluteForms_fault rfl rfl rfl htop hpc,
    fun _ => ⟨rfl, rfl, rfl, rfl, rfl⟩, fun _ _ => ⟨encode_of_op16 rfl, encode_of_op16 rfl, encode_of_op16 rfl⟩⟩
  · have hrun (m : Byte) : writesA m 1 s ((ldaWith m s).advance 2) := ldaWith_writesA m 1 s
    exact ⟨⟨_, rfl, hrun _⟩, ⟨_, rfl, hrun _⟩, ⟨_, rfl, hrun _⟩, ⟨_, rfl, hrun _⟩, ⟨_, rfl, hrun _⟩⟩
  · exact absoluteForms_run rfl rfl rfl (fun ea => writesA (s.load ea) 2 s) (fun _ => ldaWith_writesA _ 2 s) hpc

/-- Settles O37: neither indirect mode faults, so whichever the parameter gives the row, `dispatchByte_b1` loads from its address. -/
theorem opcodeB1UnderBothSettings : Obligations.OpcodeB1UnderBothSettings := by
  refine fun c s => ⟨fun hY => ?_, fun hX => ?_, fun b => ⟨_, rfl, ldaWith_writesA _ 1 s⟩⟩
  · refine ⟨_, _, rfl, dispatchByte_b1 ?_, ldaWith_writesA _ 1 s⟩
    rw [hY]
    rfl
  · refine ⟨_, _, rfl, dispatchByte_b1 ?_, ldaWith_writesA _ 1 s⟩
    rw [hX]
    rfl

/-- Settles O38: each form runs `staAt` at its address, which an absolute form has exactly where its operand does not fault. -/
theorem staStoresTheAccumulator : Obligations.StaStoresTheAccumulator := by
  refine ⟨fun b s => ?_, fun ad ea s hpc => ?_, fun ad s hpc => ?_,
    fun ad s htop hpc => absoluteForms_fault rfl rfl rfl htop hpc,
    fun _ => ⟨rfl, rfl, rfl, rfl⟩, fun _ _ => ⟨encode_of_op16 rfl, encode_of_op16 rfl, encode_of_op16 rfl⟩⟩
  · have hrun (ea : Addr) : storesA ea 1 s ((staAt s ea).advance 2) := staAt_storesA ea 1 s
    exact ⟨⟨_, rfl, hrun _⟩, ⟨_, rfl, hrun _⟩, ⟨_, rfl, hrun _⟩, ⟨_, rfl, hrun _⟩⟩
  · obtain ⟨hea, heaX, heaY⟩ := eaAbsolutes_of_pc_ne hpc Config.taken ad
    obtain ⟨hAbs, hAbsX, hAbsY⟩ : runsTo (.staAbs ad) s (storesA ad 2 s) ∧
        runsTo (.staAbsX ad) s (storesA (ad + zext16 s.x) 2 s) ∧ runsTo (.staAbsY ad) s (storesA (ad + zext16 s.y) 2 s) :=
      absoluteForms_run rfl rfl rfl (fun ea => storesA ea 2 s) (fun ea => staAt_storesA ea 2 s) hpc
    rw [hea, heaX, heaY]
    refine ⟨?_, ?_, ?_⟩
    · rintro ⟨⟩
      exact ⟨rfl, hAbs⟩
    · rintro ⟨⟩
      exact ⟨rfl, hAbsX⟩
    · rintro ⟨⟩
      exact ⟨rfl, hAbsY⟩
  · obtain ⟨hea, heaX, heaY⟩ := eaAbsolutes_of_pc_ne hpc Config.taken ad
    exact ⟨⟨_, hea⟩, ⟨_, heaX⟩, ⟨_, heaY⟩⟩

end Sys2Proof.Machine
end

section
/-! PROOF. TAX and INX (44_register.md R125, R127): both write one byte to X, with Z and N from it; INX repeated counts modulo 256. -/

namespace Sys2Proof.Machine

/-! ### A write to X, then the advance -/

/-- A handler that writes `v` to X and Z and N from it has the whole effect of a write of `v` to X: the advance over an opcode alone
keeps PC (R85). -/
theorem HandlerRuns.writesX_advance {s : State} {n : Mnemonic} {v : Byte}
    (h : HandlerRuns s n ((s.setX v).setP (updateZN v s.p))) (hadc : n ≠ .adc) :
    writesX v s (((s.setX v).setP (updateZN v s.p)).advance 1) :=
  ⟨rfl, znFrom_of_updateZN rfl, h.sameCV hadc, h.sameStorageBits, rfl, rfl, rfl, fun _ => rfl, BitVec.add_zero _⟩

theorem exec_tax_writesX (s : State) : runsTo .tax s (writesX s.a s) :=
  ⟨_, rfl, HandlerRuns.tax.writesX_advance nofun⟩

theorem exec_inx_writesX (s : State) : runsTo .inx s (writesX (s.x + 1) s) :=
  ⟨_, rfl, HandlerRuns.inx.writesX_advance nofun⟩

/-! ### INX repeated -/

/-- Of two writes to X the second one stays, and what neither changes is as before both. -/
theorem writesX_trans {s t u : State} {v w : Byte} (hst : writesX v s t) (htu : writesX w t u) : writesX w s u := by
  obtain ⟨-, -, ⟨hc, hv⟩, hbits, ha, hy, hrs, hmem, hpc⟩ := hst
  obtain ⟨hx, hzn, ⟨hc', hv'⟩, hbits', ha', hy', hrs', hmem', hpc'⟩ := htu
  exact ⟨hx, hzn, ⟨hc'.trans hc, hv'.trans hv⟩, fun i hlo hhi => (hbits' i hlo hhi).trans (hbits i hlo hhi),
    ha'.trans ha, hy'.trans hy, hrs'.trans hrs, fun a => (hmem' a).trans (hmem a), hpc'.trans hpc⟩

theorem repeatExec_succ {i : Instr} {s t : State} (h : exec i s = .next t) (n : Nat) :
    repeatExec i (n + 1) s = repeatExec i n t := by
  rw [repeatExec, h]

/-- One or more INX in a row add their number to X, modulo 256, and Z and N are those of the last one. -/
theorem repeatExec_inx_writesX (n : Nat) (s : State) :
    ∃ t, repeatExec .inx (n + 1) s = some t ∧ writesX (s.x + BitVec.ofNat 8 (n + 1)) s t := by
  induction n generalizing s with
  | zero =>
    obtain ⟨t, ht, hw⟩ := exec_inx_writesX s
    exact ⟨t, repeatExec_succ ht 0, hw⟩
  | succ n ih =>
    obtain ⟨t, ht, hw⟩ := exec_inx_writesX s
    obtain ⟨u, hu, hw'⟩ := ih t
    have hsum : t.x + BitVec.ofNat 8 (n + 1) = s.x + BitVec.ofNat 8 (n + 1 + 1) := by
      have hx : t.x = s.x + BitVec.ofNat 8 1 := hw.1
      rw [hx, BitVec.add_assoc, ← BitVec.ofNat_add, Nat.add_comm 1]
    rw [hsum] at hw'
    exact ⟨u, (repeatExec_succ ht _).trans hu, writesX_trans hw hw'⟩

/-! ### The obligations -/

/-- Settles O40: TAX writes A to X, and its encoding is its opcode alone. -/
theorem taxCopiesAToX : Obligations.TaxCopiesAToX := ⟨rfl, exec_tax_writesX⟩

/-- Settles O41: INX writes X + 1 to X, and 256 of them add 256, which is 0 modulo 256. -/
theorem inxIncrementsX : Obligations.InxIncrementsX := by
  refine ⟨rfl, fun s => ?_, fun s => ?_⟩
  · have hnext : BitVec.ofNat 8 ((s.x.toNat + 1) % 256) = s.x + 1 := BitVec.eq_of_toNat_eq (Nat.mod_mod _ _)
    rw [hnext]
    exact exec_inx_writesX s
  · obtain ⟨t, ht, hw⟩ := repeatExec_inx_writesX 255 s
    have hround : s.x + BitVec.ofNat 8 (255 + 1) = s.x := BitVec.add_zero _
    rw [hround] at hw
    obtain ⟨hx, hzn, hcv, -, ha, hy, -⟩ := hw
    exact ⟨t, ht, hx, ha, hy, hcv, hzn⟩

end Sys2Proof.Machine
end

section
/-! PROOF. BRK (45_control.md R130, R131): its handler writes RS alone, and the advance over its one byte moves nothing. -/

namespace Sys2Proof.Machine

/-- Fetch has already moved PC over the opcode, so a one-byte instruction's advance is the identity (R85). -/
theorem State.advance_one (s : State) : s.advance 1 = s := by
  have hpc : s.pc + BitVec.ofNat 16 (1 - 1) = s.pc := BitVec.add_zero s.pc
  rw [State.advance, hpc, State.setPc]

/-- BRK's whole step after the fetch: no push, no flag, no vector (R130, R131). -/
theorem exec_brk (s : State) : exec .brk s = .next (s.setRs .halted) :=
  calc exec .brk s
    _ = .next ((brkOf s).advance 1) := rfl
    _ = .next (s.setRs .halted) := by rw [State.advance_one, brkOf]

/-- Settles O42: BRK's encoding is its opcode alone, and its step is the write of `Halted` to RS. -/
theorem brkOnlyHalts : Obligations.BrkOnlyHalts := ⟨rfl, exec_brk⟩

end Sys2Proof.Machine
end

section
/-! PROOF. Fault entry (60_exceptions.md R140, R145, R146) and the host's write accessors (R153). -/

namespace Sys2Proof.Machine

/-- A fault raised after the fetch: fetch's write of Ready to RS is overwritten, and its increment of PC stays (R145, R146). -/
theorem State.fetched_raise (s : State) (k : Fault) :
    s.fetched.raise k = { s with pc := s.pc + 1, rs := .faulted k } := rfl

/-- Settles O14: a byte with no row raises UnknownOpcode in the state after the fetch, and no handler runs. -/
theorem unknownOpcodeIsTaken : Obligations.UnknownOpcodeIsTaken := by
  intro s hs hrow
  rw [step_of_no_row hs hrow, State.fetched_raise]

/-- A cell of a state after a store: the byte stored at its address, and every other cell as before. -/
theorem State.load_store (s : State) (a b : Addr) (v : Byte) :
    (s.store a v).load b = if b = a then v else s.load b :=
  Memory.read_write s.mem a b v

/-- Settles O47: each register accessor is the update of its one field, and a store replaces the memory alone, by one in which only
the addressed cell is written. -/
theorem hostWritesReadBack : Obligations.HostWritesReadBack := fun s v _ a b =>
  ⟨rfl, rfl, rfl, rfl, rfl, s.load_store a b v, s.mem.write a v, rfl⟩

end Sys2Proof.Machine
end

section
/-! PROOF. The host operations load, reset and load_and_run (70_reset_and_hazards.md R162 to R167): what the loaded memory holds, cell
by cell, and what reset then reads from its vector. -/

namespace Sys2Proof.Machine

/-! ### The state after `load` -/

/-- The block after `load` of an image that fits: the image, then the vector written over it (R162). -/
def loaded (c : Config) (bytes : List Byte) (s : State) : State :=
  ((s.setMem (s.mem.writeBytes c.loadBase bytes)).store c.resetVector (lowByte c.loadBase)).store (c.resetVector + 1)
    (highByte c.loadBase)

theorem loadImage_eq_loaded {c : Config} {bytes : List Byte} {s : State} (hc : c.wf = true)
    (h : c.loadBase.toNat + bytes.length ≤ 65536) : loadImage c bytes s = .ok (loaded c bytes s) :=
  loadImage_fits hc h

theorem loadImage_refused {c : Config} {bytes : List Byte} (s : State) (h : c.loadBase.toNat + bytes.length > 65536) :
    loadImage c bytes s = .error .memoryAddressOutOfRange :=
  if_pos h

theorem loaded_load_vector (c : Config) (bytes : List Byte) (s : State) :
    (loaded c bytes s).load c.resetVector = lowByte c.loadBase :=
  Memory.read_write_write _ _ (addr_add_one_ne _).symm

theorem loaded_load_vector_succ (c : Config) (bytes : List Byte) (s : State) :
    (loaded c bytes s).load (c.resetVector + 1) = highByte c.loadBase :=
  State.load_store_same _ _ _

/-- Off the vector, the loaded memory is the image laid over the old memory. -/
theorem loaded_load_other {c : Config} {bytes : List Byte} (s : State) {a : Addr}
    (h : c.loadBase.toNat + bytes.length ≤ 65536) (hlo : a ≠ c.resetVector) (hhi : a ≠ c.resetVector + 1) :
    (loaded c bytes s).load a =
      (if c.loadBase.toNat ≤ a.toNat then bytes[a.toNat - c.loadBase.toNat]? else none).getD (s.load a) := by
  rw [loaded, State.load_store_other _ _ hhi, State.load_store_other _ _ hlo]
  exact Memory.read_writeBytes s.mem c.loadBase bytes h a

/-- Settles O43: the two vector cells are the last ones written, every other cell is the image's or the old one, and `load` writes
memory alone. -/
theorem loadCopiesImageThenVector : Obligations.LoadCopiesImageThenVector := by
  refine fun c bytes s hc => ⟨loadImage_refused s, fun h => ⟨loaded c bytes s, loadImage_eq_loaded hc h, ?_, ?_, ?_, ?_⟩⟩
  · rw [loaded_load_vector, lowByte_toNat]
  · rw [loaded_load_vector_succ, highByte_toNat]
  · exact fun a hlo hhi => loaded_load_other s h hlo hhi
  · exact ⟨rfl, rfl, rfl, rfl, rfl, rfl⟩

/-! ### The state after `reset` -/

/-- Settles O44: the word read at the vector goes to PC, and the other writes of `reset` are constants, Y's under its parameter. -/
theorem resetClearsAndLoadsPc : Obligations.ResetClearsAndLoadsPc := fun _ s hc =>
  ⟨_, resetBlock_wf s hc, rfl, rfl, rfl, rfl, wordOf_toNat _ _, rfl, rfl⟩

/-- Reset from the loaded block reads the load base back from the vector (R166). -/
theorem resetBlock_loaded {c : Config} (bytes : List Byte) (s : State) (hc : c.wf = true) :
    ∃ u, resetBlock c (loaded c bytes s) = .ok u ∧ u.pc = c.loadBase ∧ u.rs = .ready := by
  refine ⟨_, resetBlock_wf _ hc, ?_, rfl⟩
  calc wordOf ((loaded c bytes s).load (c.resetVector + 1)) ((loaded c bytes s).load c.resetVector)
    _ = wordOf (highByte c.loadBase) (lowByte c.loadBase) := by rw [loaded_load_vector_succ, loaded_load_vector]
    _ = c.loadBase := wordOf_high_low c.loadBase

/-- Settles O45: the loaded vector holds the two bytes of the load base, which `reset` puts together in PC. -/
theorem loadThenResetStartsAtBase : Obligations.LoadThenResetStartsAtBase := by
  intro c bytes s hc h
  obtain ⟨u, hu, hpc, hrs⟩ := resetBlock_loaded bytes s hc
  exact ⟨loaded c bytes s, u, loadImage_eq_loaded hc h, hu, hpc, hrs⟩

/-! ### `load_and_run` -/

/-- Where `load` refuses, `load_and_run` answers its fault and the block as it was (R163). -/
theorem loadAndRun_of_refused {c : Config} {bytes : List Byte} {s : State} {k : Fault} (n : Nat)
    (h : loadImage c bytes s = .error k) : loadAndRun c n bytes s = some (s, .err k) := by
  rw [loadAndRun, h]

/-- Where `load` and then `reset` succeed, `load_and_run` is the run from there (R167). -/
theorem loadAndRun_of_reset {c : Config} {bytes : List Byte} {s t u : State} (n : Nat) (ht : loadImage c bytes s = .ok t)
    (hu : resetBlock c t = .ok u) : loadAndRun c n bytes s = runOp c n u := by
  simp only [loadAndRun, ht, hu]

/-- Settles O46: the refusal is `load`'s own, and for an image that fits neither `load` nor `reset` refuses. -/
theorem loadAndRunIsLoadResetRun : Obligations.LoadAndRunIsLoadResetRun := by
  refine fun c n bytes s hc => ⟨fun h => loadAndRun_of_refused n (loadImage_refused s h), fun h => ?_⟩
  obtain ⟨t, u, ht, hu, -⟩ := loadThenResetStartsAtBase c bytes s hc h
  exact ⟨t, u, ht, hu, loadAndRun_of_reset n ht hu⟩

end Sys2Proof.Machine
end
